-- ==== Sys2Proof/Word.lean ====
section
/-! DEFINITION. The widths of spec/00_scope.md R2: a byte is 8 bits, a Word 32 bits; the length and index
registers are 64 bits (spec/10_state.md R11, R13, R15). -/

namespace Sys2Proof

/-- A byte, a natural in 0 .. 255 (R2, R7). -/
abbrev Byte := BitVec 8

/-- A Word, an unsigned 32-bit integer (R2, R7). -/
abbrev Word := BitVec 32

/-- A 64-bit register value: LEN, PLEN, BI (R11, R13, R15). -/
abbrev Reg64 := BitVec 64

end Sys2Proof
end

