-- ==== Sys2Proof/Syntax.lean ====
section
/-! DEFINITION. The whole syntax of the core: the thirteen rows of spec/opcode_table.json as instructions
(spec/30_encoding.md R44 to R48), the elements of state a host can name, and the host actions of
spec/10_state.md R25 to R28. -/

namespace Sys2Proof

/-- A command of the core. The seven commands of R45 take no operand (R46). The six reserved rows of the opcode
table carry the bits their row leaves free, so that all 256 command words are different terms (R47). -/
inductive Instr where
  /-- INIT, word 0x01 (R104). -/
  | init
  /-- PAD, word 0x02 (R79). -/
  | pad
  /-- CHUNK, word 0x03 (R82). -/
  | chunk
  /-- SCHED, word 0x04 (R88). -/
  | sched
  /-- COMPRESS, word 0x05 (R94). -/
  | compress
  /-- DIGEST, word 0x06 (R101). -/
  | digest
  /-- HASH, word 0x07 (R105). -/
  | hash
  /-- RESERVED_00, word 0x00 (R107). -/
  | reserved00
  /-- RESERVED_08_0F, words 00001xxx (R107). -/
  | reserved08 (low : BitVec 3)
  /-- RESERVED_10_1F, words 0001xxxx (R107). -/
  | reserved10 (low : BitVec 4)
  /-- RESERVED_20_3F, words 001xxxxx (R107). -/
  | reserved20 (low : BitVec 5)
  /-- RESERVED_40_7F, words 01xxxxxx (R107). -/
  | reserved40 (low : BitVec 6)
  /-- RESERVED_80_FF, words 1xxxxxxx (R107). -/
  | reserved80 (low : BitVec 7)
  deriving DecidableEq, Repr

/-- One element of a register or buffer, as the host names it: a register name and, where the register has more
than one element, an index (R26, R27, R52). Any index can be written down; R29 refuses the absent ones. -/
inductive Loc where
  | msg (i : Nat)
  | len
  | pm (i : Nat)
  | plen
  | blk (i : Nat)
  | bi
  | w (i : Nat)
  | h (i : Nat)
  | t (i : Nat)
  | dig (i : Nat)
  | status
  | cmd
  | hinit (i : Nat)
  | k (i : Nat)
  deriving DecidableEq, Repr

/-- A host action, one line of a host script (R25 to R28, R52). The value of a write is any natural; R29 refuses
one that does not fit. -/
inductive HostAction where
  /-- RESET: `Reset` (R25). -/
  | reset
  /-- SET: `HostWrite(reg, i, v)` (R26). -/
  | write (l : Loc) (v : Nat)
  /-- GET: `HostRead(reg, i)` (R27). -/
  | read (l : Loc)
  /-- CMD: `Command(c)` (R28), the same action as a write of `c` to CMD (R23). -/
  | command (c : Byte)
  deriving DecidableEq, Repr

end Sys2Proof
end

