-- ==== Sys2Proof/Config.lean ====
section
/-! DEFINITION. What an implementation fixes (the parameters of spec/00_scope.md R3, R4) and the free values that
stand for what the spec leaves unspecified (spec/93_implementation_defined.md U1). -/

namespace Sys2Proof

/-- The parameters of one core. The spec's third parameter, ADDR_MAP (R5), is not here: "No rule of this spec
depends on it". -/
structure Config where
  /-- MSG_MAX, the capacity of MSG in bytes, `0 .. 2^61 - 1` (R3). -/
  msgCapacity : Fin (2 ^ 61)
  /-- REJECT_EMPTY: whether HASH rejects a message of length 0 (R4). -/
  rejectEmpty : Bool
  deriving DecidableEq, Repr

/-- MSG_MAX as a natural (R3). -/
def Config.msgMax (c : Config) : Nat := c.msgCapacity.val

/-- PM_MAX, the capacity of PM in bytes (R3). -/
def Config.pmMax (c : Config) : Nat := 64 * ((c.msgMax + 8) / 64 + 1)

/-- The parameters at `State.reset`: REJECT_EMPTY = 0 is the default of R4; MSG_MAX = 2^61 - 1, the largest value R3
allows. DESIGN CHOICE (notes/assumptions/2.md), unsafe: R3 leaves MSG_MAX open. -/
def Config.standard : Config := { msgCapacity := ⟨2 ^ 61 - 1, by decide⟩, rejectEmpty := false }

/-- The unspecified content of byte cell `cell` after reset number `draw` (U1): a FREE VALUE, no value of it can be
proved. Each cell and each reset has its own (notes/assumptions/1.md). -/
opaque Config.freeByte (draw : Nat) (cell : Loc) : Byte

/-- The unspecified content of Word element `cell` after reset number `draw` (U1): a FREE VALUE, as `freeByte`. -/
opaque Config.freeWord (draw : Nat) (cell : Loc) : Word

end Sys2Proof
end

