-- ==== Sys2Proof/Decode.lean ====
section
/-! DEFINITION. The command word (spec/30_encoding.md R44, R45, R47, spec/opcode_table.json): the decoder, total on
all 256 words, and after it the encoder and the mask and match of each row of the table. -/

namespace Sys2Proof

/-- The command a command word stands for (R45, R47; the mask and match of each row of the opcode table). A reserved
word is decoded, not rejected: R107 gives it an effect. No mode changes decoding (R48). -/
def decodeCommand (c : Byte) : Instr :=
  if c = 0x01#8 then .init
  else if c = 0x02#8 then .pad
  else if c = 0x03#8 then .chunk
  else if c = 0x04#8 then .sched
  else if c = 0x05#8 then .compress
  else if c = 0x06#8 then .digest
  else if c = 0x07#8 then .hash
  else if c = 0x00#8 then .reserved00
  else if c &&& 0xF8#8 = 0x08#8 then .reserved08 (c.extractLsb' 0 3)
  else if c &&& 0xF0#8 = 0x10#8 then .reserved10 (c.extractLsb' 0 4)
  else if c &&& 0xE0#8 = 0x20#8 then .reserved20 (c.extractLsb' 0 5)
  else if c &&& 0xC0#8 = 0x40#8 then .reserved40 (c.extractLsb' 0 6)
  else .reserved80 (c.extractLsb' 0 7)

/-- Decoding a sequence of command bytes: one command of 8 bits and the rest (R44: "Every command has the same
length"); no command where there is no byte. -/
def decode : List Byte → Option (Instr × List Byte)
  | [] => none
  | c :: rest => some (decodeCommand c, rest)

/-- The command word of an instruction (R45; the bit patterns of the reserved rows of the opcode table). -/
def encodeCommand : Instr → Byte
  | .init => 0x01#8
  | .pad => 0x02#8
  | .chunk => 0x03#8
  | .sched => 0x04#8
  | .compress => 0x05#8
  | .digest => 0x06#8
  | .hash => 0x07#8
  | .reserved00 => 0x00#8
  | .reserved08 low => 0b00001#5 ++ low
  | .reserved10 low => 0b0001#4 ++ low
  | .reserved20 low => 0b001#3 ++ low
  | .reserved40 low => 0b01#2 ++ low
  | .reserved80 low => 0b1#1 ++ low

/-- The bytes of an instruction. -/
def encode (i : Instr) : List Byte := [encodeCommand i]

/-- The mask and the match of the instruction's row in spec/opcode_table.json. -/
def tableRow : Instr → Byte × Byte
  | .init => (0xFF#8, 0x01#8)
  | .pad => (0xFF#8, 0x02#8)
  | .chunk => (0xFF#8, 0x03#8)
  | .sched => (0xFF#8, 0x04#8)
  | .compress => (0xFF#8, 0x05#8)
  | .digest => (0xFF#8, 0x06#8)
  | .hash => (0xFF#8, 0x07#8)
  | .reserved00 => (0xFF#8, 0x00#8)
  | .reserved08 _ => (0xF8#8, 0x08#8)
  | .reserved10 _ => (0xF0#8, 0x10#8)
  | .reserved20 _ => (0xE0#8, 0x20#8)
  | .reserved40 _ => (0xC0#8, 0x40#8)
  | .reserved80 _ => (0x80#8, 0x80#8)

/-- The decoder on a word of the opcode table given as a number: one 8-bit word (R44), nothing longer or shorter. -/
def decodeTableWord (nbits w : Nat) : Option Instr :=
  if nbits = 8 ∧ w < 256 then (decode [BitVec.ofNat 8 w]).map Prod.fst else none

end Sys2Proof
end

