-- ==== Sys2Proof/Machine/State.lean ====
section
/-! DEFINITION. The state of the core (spec/10_state.md R10 to R24), the model's own fields beside it, the reasons a
step can stop, and the state right after reset (R25, spec/70_reset_and_hazards.md R130). -/

namespace Sys2Proof.Machine

/-- A byte buffer whose capacity is a parameter (MSG, PM): the cells written since the last Reset, addresses strictly
rising (`Memory.wf`). An unlisted address is a cell that is still unspecified (U1). -/
abbrev Memory := List Host.Cell

/-- The two error kinds (spec/60_exceptions.md R113). -/
inductive ErrorKind where
  /-- Code 1, "empty message/text". -/
  | invalidInput
  /-- Code 2. -/
  | internalInvariantViolation
  deriving DecidableEq, Repr

/-- The fields of STATUS (R22). ERR has the three values that are ever produced
(spec/93_implementation_defined.md V2); bits 7:3 read as 0 and are no state (V3). -/
structure Status where
  /-- ERR: the error recorded for the current call, if any. -/
  err : Option ErrorKind
  /-- DV: digest valid. -/
  dv : Bool
  deriving DecidableEq, Repr

/-- The machine. The fields from `msg` to `status` are all the state the spec gives the core (R24); CMD stores nothing
(R23), and the ROMs HINIT and K are no state (Machine/Rom.lean). The other fields are the model's own. -/
structure State where
  /-- The parameters the model takes as an argument (R3, R4); no step changes them. -/
  cfg : Config
  /-- MSG, the message buffer (R10). -/
  msg : Memory
  /-- LEN, the byte length of the Message (R11). -/
  len : Reg64
  /-- PM, the padded-message buffer (R12). -/
  pm : Memory
  /-- PLEN, the byte length of the PaddedMessage (R13). -/
  plen : Reg64
  /-- BLK, the block register (R14). -/
  blk : Vector Byte 64
  /-- BI, the block index (R15). -/
  bi : Reg64
  /-- W, the message-schedule file (R16). -/
  w : Vector Word 64
  /-- H, the hash-state file (R17). -/
  h : Vector Word 8
  /-- T, the working file of the Compressor (R18). -/
  t : Vector Word 8
  /-- DIG, the digest buffer (R21). -/
  dig : Vector Byte 32
  /-- STATUS (R22). -/
  status : Status
  /-- The number of Resets so far, which picks the free values of the unspecified cells (U1). -/
  draws : Nat
  /-- The host actions still to come, the next one first: the host's side of R25 to R28 (R52). -/
  script : List HostAction
  /-- The values HostReads have returned to the host, the latest first (R27). -/
  replies : List Nat
  deriving DecidableEq, Repr

/-- The reasons the machine stops with a fault. -/
inductive Fault where
  /-- Raised by PAD, CHUNK and HASH where the `MemRead` or `MemWrite` of their rule would go past the capacity of MSG or
  PM, an access R9 leaves undefined. Safe: only a state with LEN > MSG_MAX or PLEN > PM_MAX can raise it, and no run
  reaches one (V4). -/
  | beyondBuffer
  deriving DecidableEq, Repr

/-- The reasons a step is refused. All but the first are the refused host actions of R29 (X1, V4), which have no
meaning in the spec; each is safe: nothing is claimed of a run that contains one. -/
inductive Refusal where
  /-- Raised by an arm of `exec` whose instruction has no meaning yet; safe. No arm raises it in this model. -/
  | notModelled (mnemonic : String)
  /-- Raised by a HostWrite to T, DIG, STATUS, HINIT or K; safe. -/
  | notWritable
  /-- Raised by a HostRead of HINIT or K; safe. -/
  | notReadable
  /-- Raised by a HostWrite or HostRead with an index outside the register's element count; safe. -/
  | noSuchElement
  /-- Raised by a HostWrite of a value that does not fit the element width; safe. -/
  | valueTooWide
  /-- Raised by a HostWrite to LEN above MSG_MAX or to PLEN above PM_MAX; safe. -/
  | illegalLength
  deriving DecidableEq, Repr

/-- What one step answers. -/
abbrev Result := Host.Outcome State Fault Refusal

/-- The state right after reset number `draw` of a core with parameters `c` and an idle host (R25, R130): the control
registers are 0, every data cell holds its free value (U1). -/
def State.afterReset (c : Config) (draw : Nat) : State where
  cfg := c
  msg := []
  len := 0
  pm := []
  plen := 0
  blk := Vector.ofFn fun i => Config.freeByte draw (.blk i)
  bi := 0
  w := Vector.ofFn fun i => Config.freeWord draw (.w i)
  h := Vector.ofFn fun i => Config.freeWord draw (.h i)
  t := Vector.ofFn fun i => Config.freeWord draw (.t i)
  dig := Vector.ofFn fun i => Config.freeByte draw (.dig i)
  status := { err := none, dv := false }
  draws := draw
  script := []
  replies := []

/-- The machine right after reset (R25, R130), with the parameters of `Config.standard`. The core is idle: "after Reset
the core is idle and waits for host actions". -/
def State.reset : State := State.afterReset Config.standard 0

end Sys2Proof.Machine
end

