-- ==== Sys2Proof/Machine/Flags.lean ====
section
/-! DEFINITION. The flags of the core: the fields of STATUS (spec/10_state.md R22) and their codes
(spec/60_exceptions.md R113). There are no condition codes; these two fields are the only flags. -/

namespace Sys2Proof.Machine

/-- The code of an error kind in STATUS.ERR (R113). -/
def ErrorKind.code : ErrorKind → BitVec 2
  | .invalidInput => 1#2
  | .internalInvariantViolation => 2#2

/-- The field ERR: 0 where no error is recorded (R22, R113). -/
def Status.errCode (st : Status) : BitVec 2 := (st.err.map ErrorKind.code).getD 0#2

/-- STATUS as the host reads it: bits 7:3 zero, DV at bit 2, ERR at bits 1:0 (R22). -/
def Status.toByte (st : Status) : Byte := 0#5 ++ BitVec.ofBool st.dv ++ st.errCode

/-- `STATUS.DV <- 0`. -/
def clearDv (s : State) : State := { s with status := { s.status with dv := false } }

/-- `STATUS.DV <- 1`. -/
def setDv (s : State) : State := { s with status := { s.status with dv := true } }

end Sys2Proof.Machine
end

