-- ==== Sys2Proof/Machine/Ops.lean ====
section
/-! DEFINITION. The operations every command is built from: `MemRead` and `MemWrite` over the byte buffers
(spec/00_scope.md R9), the error entry (spec/60_exceptions.md R117) and the return from it (R119), and the rule that an
error is sticky (R118). -/

namespace Sys2Proof.Machine

/-- The value last written to a cell since the last Reset; `none` while the cell is unspecified (U1). This is what an
address reads as in the canonical form: an unlisted one reads as `none`. -/
def Memory.lookup : Memory → Nat → Option Byte
  | [], _ => none
  | (k, b) :: rest, a => if k = a then some b else Memory.lookup rest a

/-- The cells that hold the bytes `bs` from address `a` on. -/
def Memory.cells : Nat → List Byte → Memory
  | _, [] => []
  | a, b :: bs => (a, b) :: Memory.cells (a + 1) bs

/-- `MemWrite(S, a, n, s)`: the bytes `bs` at addresses `a`, `a + 1`, ...; every other cell unchanged (R9). -/
def Memory.write (m : Memory) (a : Nat) (bs : List Byte) : Memory :=
  m.filter (fun c => c.1 < a) ++ Memory.cells a bs ++ m.filter (fun c => a + bs.length ≤ c.1)

/-- The canonical form of a buffer: addresses strictly rising. No entry can equal what an unlisted address reads as,
which is `none` (`Memory.lookup`), so equal contents are equal lists. -/
abbrev Memory.wf (m : Memory) : Prop := m.Pairwise (fun x y => x.1 < y.1)

/-- `MSG[i]`: the byte written there, or the cell's unspecified reset content (U1). -/
def State.msgCell (s : State) (i : Nat) : Byte :=
  (s.msg.lookup i).getD (Config.freeByte s.draws (.msg i))

/-- `PM[i]`: the byte written there, or the cell's unspecified reset content (U1). -/
def State.pmCell (s : State) (i : Nat) : Byte :=
  (s.pm.lookup i).getD (Config.freeByte s.draws (.pm i))

/-- An access that ends before cell `last` of a buffer of `capacity` cells: R9 defines it only within the capacity. A
fault otherwise (`Fault.beyondBuffer`, notes/assumptions/4.md). -/
def withinBuffer (capacity last : Nat) (access : Result) : Result :=
  if last ≤ capacity then access else .fault .beyondBuffer

/-- `raise E`: the error entry (R117). The kind is recorded, DV is cleared, nothing else changes; the command ends. -/
def raise (e : ErrorKind) (s : State) : State := { s with status := { err := some e, dv := false } }

/-- The return from an error (R119): what INIT and the start of HASH do to STATUS. -/
def clearError (s : State) : State := { s with status := { err := none, dv := false } }

/-- A stage command or a reserved word runs only while no error is recorded; otherwise it is ignored and only
`STATUS.DV <- 0` is done (R28, R118). -/
def unlessError (s : State) (run : State → Result) : Result :=
  if s.status.err.isSome then .next (clearDv s) else run s

/-- One part of a command after another: the second starts from the state the first left (R9: "in the order
written"). -/
def andThen (r : Result) (k : State → Result) : Result :=
  match r with
  | .next s => k s
  | .fault f => .fault f
  | .refused q => .refused q

end Sys2Proof.Machine
end

