-- ==== Sys2Proof/Machine/Operands.lean ====
section
/-! DEFINITION. The implicit operands of the commands (spec/30_encoding.md R46): the Message and a Block, read from
the buffers that hold them. No command has another operand form. -/

namespace Sys2Proof.Machine

/-- The Message, `MemRead(MSG, 0, LEN)` (R10, R79). -/
def State.message (s : State) : List Byte := (List.range s.len.toNat).map s.msgCell

/-- `MemRead(PM, 64 * j, 64)`: Block `j` of the PaddedMessage (R34, R82). -/
@[irreducible] def State.pmBlock (s : State) (j : Nat) : Vector Byte 64 := Vector.ofFn fun k => s.pmCell (64 * j + k)

end Sys2Proof.Machine
end

