-- ==== Sys2Proof/Machine/Chunker.lean ====
section
/-! DEFINITION. The Chunker (64-byte slicer): the chunking function of spec/42_chunker.md R80 and the command CHUNK
(R82). -/

namespace Sys2Proof.Machine

/-- `Chunk(P)`: the Blocks `P[64*j ..< 64*j + 64]` in order, for a `P` whose length is a multiple of 64 (R80). The spec
does not define it for another length; there the model leaves out the trailing `length mod 64` bytes. DESIGN CHOICE
(notes/assumptions/12.md), safe: it is applied to padded messages only, and command CHUNK does not use it. -/
def chunkBytes (p : List Byte) : List (Vector Byte 64) :=
  (List.range (p.length / 64)).map fun j => Vector.ofFn fun k : Fin 64 => p.getD (64 * j + k) 0

/-- What the delivery of a Block writes (R82): BLK from PM at block index BI, then BI advances. -/
def delivered (s : State) : State := clearDv { s with blk := s.pmBlock s.bi.toNat, bi := s.bi + 1 }

/-- The delivery of one Block (R82), also run inside HASH (R105): reads `PM[64*BI ..< 64*BI + 64]`. -/
def deliverBlock (s : State) : Result := withinBuffer s.cfg.pmMax (64 * s.bi.toNat + 64) (.next (delivered s))

/-- The body of CHUNK: the two checks over unbounded naturals, the alignment check first, then the delivery (R82). -/
def chunkStage (s : State) : Result :=
  if s.plen.toNat % 64 ≠ 0 then .next (raise .internalInvariantViolation s)
  else if 64 * (s.bi.toNat + 1) > s.plen.toNat then .next (raise .internalInvariantViolation s)
  else deliverBlock s

/-- CHUNK (R82). -/
def execChunk (s : State) : Result := unlessError s chunkStage

end Sys2Proof.Machine
end

