-- ==== Sys2Proof/Machine/WordFunctions.lean ====
section
/-! DEFINITION. The primitive word functions of spec/40_word_functions.md (R60 to R72): the modular adder, the
rotator and shifter, the sigma functions, the boolean mixers and the byte packers. Pure; none reads the state. -/

namespace Sys2Proof.Machine

/-- `add32(a, b)`: addition modulo 2^32, no carry flag (R60). -/
def add32 (a b : Word) : Word := a + b

/-- `rotr32(x, n)`: the 32-bit right rotation (R61). The spec defines it for `1 <= n <= 31`; outside, the model
reduces `n` modulo 32, which X2 allows. DESIGN CHOICE (notes/assumptions/5.md), safe: no command uses another amount. -/
def rotr32 (x : Word) (n : Nat) : Word := x.rotateRight n

/-- `shr32(x, n)`: the logical right shift (R62), for `1 <= n <= 31` in the spec; as `rotr32` outside. -/
def shr32 (x : Word) (n : Nat) : Word := x >>> n

/-- `σ0` (R63). -/
def ssig0 (x : Word) : Word := rotr32 x 7 ^^^ rotr32 x 18 ^^^ shr32 x 3

/-- `σ1` (R64). -/
def ssig1 (x : Word) : Word := rotr32 x 17 ^^^ rotr32 x 19 ^^^ shr32 x 10

/-- `Σ0` (R65). -/
def bsig0 (x : Word) : Word := rotr32 x 2 ^^^ rotr32 x 13 ^^^ rotr32 x 22

/-- `Σ1` (R66). -/
def bsig1 (x : Word) : Word := rotr32 x 6 ^^^ rotr32 x 11 ^^^ rotr32 x 25

/-- `Ch`, choose (R67, R69). -/
def ch (x y z : Word) : Word := (x &&& y) ^^^ (~~~x &&& z)

/-- `Ma`, majority, the rubric's `Maj` (R68, R69). -/
def ma (x y z : Word) : Word := (x &&& y) ^^^ (x &&& z) ^^^ (y &&& z)

/-- `Pack32BE`: four bytes to a Word, the first byte most significant (R70). -/
def pack32be (b0 b1 b2 b3 : Byte) : Word := b0 ++ b1 ++ b2 ++ b3

/-- `Unpack32BE`: the four bytes of a Word, most significant first (R71). -/
def unpack32be (w : Word) : Vector Byte 4 :=
  #v[w.extractLsb' 24 8, w.extractLsb' 16 8, w.extractLsb' 8 8, w.extractLsb' 0 8]

/-- `Enc64BE`: a natural below 2^64 as 8 bytes, most significant first (R72). The spec gives it no meaning for a larger
natural (X3, N11); there the model encodes the natural modulo 2^64. DESIGN CHOICE (notes/assumptions/11.md), safe: no
command encodes one, since `LEN <= MSG_MAX <= 2^61 - 1`. -/
def enc64be (v : Nat) : List Byte :=
  let x := BitVec.ofNat 64 v
  [x.extractLsb' 56 8, x.extractLsb' 48 8, x.extractLsb' 40 8, x.extractLsb' 32 8,
   x.extractLsb' 24 8, x.extractLsb' 16 8, x.extractLsb' 8 8, x.extractLsb' 0 8]

end Sys2Proof.Machine
end

