-- ==== Sys2Proof/Machine/Compressor.lean ====
section
/-! DEFINITION. The Compressor (64-round compression function): the function of spec/44_compressor.md R90 to R93 and
the command COMPRESS (R94). -/

namespace Sys2Proof.Machine

/-- `temp1` of one round (R91). -/
def temp1 (t : Vector Word 8) (w k : Word) : Word :=
  add32 (add32 (add32 (add32 t[7] (bsig1 t[4])) (ch t[4] t[5] t[6])) w) k

/-- `temp2` of one round (R91). -/
def temp2 (t : Vector Word 8) : Word := add32 (bsig0 t[0]) (ma t[0] t[1] t[2])

/-- `Round(t, w, k)`: every right-hand side uses the values before the round (R91). -/
def roundStep (t : Vector Word 8) (w k : Word) : Vector Word 8 :=
  #v[add32 (temp1 t w k) (temp2 t), t[0], t[1], t[2], add32 t[3] (temp1 t w k), t[4], t[5], t[6]]

/-- The working Words after round 63: the working copy starts as the HashState, and round `i` uses `w[i]` and `K[i]`
(R90, R92). -/
@[irreducible] def workingWords (h : Vector Word 8) (w : Vector Word 64) : Vector Word 8 :=
  (List.finRange 64).foldl (fun t i => roundStep t w[i] romK[i]) h

/-- The accumulation (R93). -/
@[irreducible] def accumulate (h t : Vector Word 8) : Vector Word 8 := Vector.ofFn fun k => add32 h[k] t[k]

/-- `Compress(h, w)` (R92). -/
def compressState (h : Vector Word 8) (w : Vector Word 64) : Vector Word 8 := accumulate h (workingWords h w)

/-- The body of COMPRESS (R94), also run inside HASH (R105). -/
def compressStage (s : State) : State :=
  clearDv { s with t := workingWords s.h s.w, h := compressState s.h s.w }

/-- COMPRESS (R94). -/
def execCompress (s : State) : Result := unlessError s fun s => .next (compressStage s)

end Sys2Proof.Machine
end

