-- ==== Sys2Proof/Machine/DigestAssembler.lean ====
section
/-! DEFINITION. The DigestAssembler (digest serializer): the function of spec/45_digest.md R100 and the command DIGEST
(R101). -/

namespace Sys2Proof.Machine

/-- `Serialize(h)`: byte `4*k + j` is byte `j`, most significant first, of `h[k]` (R100). -/
@[irreducible] def serialize (h : Vector Word 8) : Vector Byte 32 :=
  Vector.ofFn fun i => (unpack32be h[i.val / 4])[i.val % 4]

/-- The body of DIGEST (R101), also run inside HASH (R105). -/
def digestStage (s : State) : State := setDv { s with dig := serialize s.h }

/-- DIGEST (R101). -/
def execDigest (s : State) : Result := unlessError s fun s => .next (digestStage s)

end Sys2Proof.Machine
end

