-- ==== Sys2Proof/Machine/Preprocessor.lean ====
section
/-! DEFINITION. The Preprocessor (padding engine): the padding function of spec/41_preprocessor.md R75 to R78 and the
command PAD (R79). -/

namespace Sys2Proof.Machine

/-- `ZeroCount(r)`: the zero bytes between the 0x80 byte and the length field, in the document's three
cases (R76), for `r <= 63`. Above 63 the spec gives it no meaning and the third case goes on (DESIGN CHOICE,
notes/assumptions/13.md, safe: it is used on remainders modulo 64 only). -/
def zeroCount (r : Nat) : Nat :=
  if r < 56 then 55 - r
  else if r = 56 then 63
  else 64 - r + 56 - 1

/-- `Pad(M)`: the Message, the byte 0x80, the zero bytes, and the bit length in 8 bytes (R75, R77). R75 defines it up to
2^61 - 1 bytes; beyond, the length field follows `enc64be` (DESIGN CHOICE, notes/assumptions/11.md, safe). -/
def padMessage (m : List Byte) : List Byte :=
  m ++ [0x80#8] ++ List.replicate (zeroCount (m.length % 64)) 0x00#8 ++ enc64be (m.length * 8)

/-- `PadLen(L)`, the length of `Pad(M)` (R78). -/
def padLen (l : Nat) : Nat := 64 * ((l + 8) / 64 + 1)

/-- What PAD writes (R79): PM from cell 0 on, PLEN, and DV. -/
def padded (s : State) : State :=
  clearDv { s with
    pm := s.pm.write 0 (padMessage s.message)
    plen := BitVec.ofNat 64 (padMessage s.message).length }

/-- The body of PAD (R79), also run inside HASH (R105): reads `MSG[0 ..< LEN]`, writes `PM[0 ..< PadLen(LEN)]`. -/
def padStage (s : State) : Result :=
  withinBuffer s.cfg.msgMax s.len.toNat <|
  withinBuffer s.cfg.pmMax (padMessage s.message).length <|
  .next (padded s)

/-- PAD (R79). -/
def execPad (s : State) : Result := unlessError s padStage

end Sys2Proof.Machine
end

