-- ==== Sys2Proof/Machine/Scheduler.lean ====
section
/-! DEFINITION. The MessageScheduler (message-schedule expander): the schedule function of spec/43_scheduler.md R85 to
R87 and the command SCHED (R88). -/

namespace Sys2Proof.Machine

/-- Words 0 to 15 of a Block (R86). -/
def firstWords (b : Vector Byte 64) : List Word :=
  List.ofFn fun i : Fin 16 => pack32be b[4 * i.val] b[4 * i.val + 1] b[4 * i.val + 2] b[4 * i.val + 3]

/-- The next Word after the Words `w[0] .. w[i-1]`, `i >= 16` (R87). For fewer than 16 Words R87 says nothing and a
missing Word counts as 0 (DESIGN CHOICE, notes/assumptions/13.md, safe: `schedule` starts with 16). -/
def nextWord (w : List Word) : Word :=
  let i := w.length
  add32 (add32 (add32 (ssig1 (w.getD (i - 2) 0)) (w.getD (i - 7) 0)) (ssig0 (w.getD (i - 15) 0))) (w.getD (i - 16) 0)

/-- `n` further Words, in increasing order (R87). -/
def expandWords : Nat → List Word → List Word
  | 0, w => w
  | n + 1, w => expandWords n (w ++ [nextWord w])

/-- `Schedule(B)`: the 64 Words of a Block (R85). -/
@[irreducible] def schedule (b : Vector Byte 64) : Vector Word 64 :=
  Vector.ofFn fun i => (expandWords 48 (firstWords b)).getD i 0

/-- The body of SCHED (R88), also run inside HASH (R105). -/
def schedStage (s : State) : State := clearDv { s with w := schedule s.blk }

/-- SCHED (R88). -/
def execSched (s : State) : Result := unlessError s fun s => .next (schedStage s)

end Sys2Proof.Machine
end

