-- ==== Sys2Proof/Machine/Sequencer.lean ====
section
/-! DEFINITION. The Hasher sequencer: the commands INIT (spec/46_sequencer.md R104) and HASH (R105), the reserved
command words (R107), and the function the core computes (spec/00_scope.md R1). -/

namespace Sys2Proof.Machine

/-- The body of INIT (R104): a fresh HashState, block 0 next, no error recorded. -/
def initStage (s : State) : State := clearError { s with h := romHinit, bi := 0 }

/-- INIT (R104): executed in every state, the return from an error (R119). -/
def execInit (s : State) : Result := .next (initStage s)

/-- One iteration of the loop of HASH: deliver the next Block, schedule it, compress it (R105). -/
def hashBlock (s : State) : Result :=
  andThen (deliverBlock s) fun s => .next (compressStage (schedStage s))

/-- `n` iterations of the loop of HASH, in increasing block order (R105). -/
def hashBlocks : Nat → State → Result
  | 0, s => .next s
  | n + 1, s => andThen (hashBlock s) (hashBlocks n)

/-- HASH (R105): executed in every state. The loop starts at BI = 0 with exit test `BI < PLEN / 64` and each iteration
adds 1 to BI, so it runs `PLEN / 64` times. -/
def execHash (s : State) : Result :=
  if s.len = 0 ∧ s.cfg.rejectEmpty = true then .next (raise .invalidInput (clearError s))
  else
    andThen (padStage (initStage s)) fun s =>
      if s.plen.toNat % 64 ≠ 0 then .next (raise .internalInvariantViolation s)
      else andThen (hashBlocks (s.plen.toNat / 64) s) fun s => .next (digestStage s)

/-- A reserved command word (R107): an error where none is recorded, ignored otherwise. -/
def reservedWord (s : State) : Result := unlessError s fun s => .next (raise .internalInvariantViolation s)

/-- RESERVED_00, word 0x00 (R107). -/
def execReserved00 (s : State) : Result := reservedWord s

/-- RESERVED_08_0F, words 0x08 .. 0x0F (R107). -/
def execReserved08 (s : State) : Result := reservedWord s

/-- RESERVED_10_1F, words 0x10 .. 0x1F (R107). -/
def execReserved10 (s : State) : Result := reservedWord s

/-- RESERVED_20_3F, words 0x20 .. 0x3F (R107). -/
def execReserved20 (s : State) : Result := reservedWord s

/-- RESERVED_40_7F, words 0x40 .. 0x7F (R107). -/
def execReserved40 (s : State) : Result := reservedWord s

/-- RESERVED_80_FF, words 0x80 .. 0xFF (R107). -/
def execReserved80 (s : State) : Result := reservedWord s

/-- `SHA256(M)`, the function the core computes (R1), for a Message `padMessage` is defined on (at most 2^61 - 1 bytes;
beyond, notes/assumptions/11.md). -/
def sha256 (m : List Byte) : Vector Byte 32 :=
  serialize ((chunkBytes (padMessage m)).foldl (fun h b => compressState h (schedule b)) romHinit)

end Sys2Proof.Machine
end

