-- ==== Sys2Proof/Machine/Dispatch.lean ====
section
/-! DEFINITION. One arm per constructor of Instr: each command's meaning, called once (spec/10_state.md R28). -/

namespace Sys2Proof.Machine

/-- The meaning of a command. The order of tests in R28 is in the meanings: INIT and HASH run in every state, the
others only while no error is recorded. -/
def exec (i : Instr) (s : State) : Host.Outcome State Fault Refusal :=
  match i with
  | .init => Sys2Proof.Machine.execInit s
  | .pad => Sys2Proof.Machine.execPad s
  | .chunk => Sys2Proof.Machine.execChunk s
  | .sched => Sys2Proof.Machine.execSched s
  | .compress => Sys2Proof.Machine.execCompress s
  | .digest => Sys2Proof.Machine.execDigest s
  | .hash => Sys2Proof.Machine.execHash s
  | .reserved00 => Sys2Proof.Machine.execReserved00 s
  | .reserved08 _ => Sys2Proof.Machine.execReserved08 s
  | .reserved10 _ => Sys2Proof.Machine.execReserved10 s
  | .reserved20 _ => Sys2Proof.Machine.execReserved20 s
  | .reserved40 _ => Sys2Proof.Machine.execReserved40 s
  | .reserved80 _ => Sys2Proof.Machine.execReserved80 s

end Sys2Proof.Machine
end

