-- ==== Sys2Proof/Machine/HostAccess.lean ====
section
/-! DEFINITION. The host's side of the core (spec/10_state.md R25 to R29): what the host may read and write, the
actions Reset, HostWrite, HostRead and Command, and the pseudo-commands of spec/30_encoding.md R53. -/

namespace Sys2Proof.Machine

/-- The registers a HostWrite is accepted for (R26); T, DIG, STATUS, HINIT and K are not (R29). -/
def writable : Loc → Bool
  | .msg _ | .len | .pm _ | .plen | .blk _ | .bi | .w _ | .h _ | .cmd => true
  | .t _ | .dig _ | .status | .hinit _ | .k _ => false

/-- The registers a HostRead is accepted for (R27); the ROMs are not (R29). -/
def readable : Loc → Bool
  | .msg _ | .len | .pm _ | .plen | .blk _ | .bi | .w _ | .h _ | .t _ | .dig _ | .status | .cmd => true
  | .hinit _ | .k _ => false

/-- Whether the register has the element named: its index is below the element count (R10 to R21, R30). -/
def hasElement (c : Config) : Loc → Bool
  | .msg i => decide (i < c.msgMax)
  | .pm i => decide (i < c.pmMax)
  | .blk i | .w i | .k i => decide (i < 64)
  | .h i | .t i | .hinit i => decide (i < 8)
  | .dig i => decide (i < 32)
  | .len | .plen | .bi | .status | .cmd => true

/-- The width of an element in bits (R33). -/
def widthOf : Loc → Nat
  | .msg _ | .pm _ | .blk _ | .dig _ | .status | .cmd => 8
  | .w _ | .h _ | .t _ | .hinit _ | .k _ => 32
  | .len | .plen | .bi => 64

/-- The legal values of LEN and PLEN (R11, R13); every other register takes any value of its width. -/
def legalValue (c : Config) (l : Loc) (v : Nat) : Bool :=
  match l with
  | .len => decide (v ≤ c.msgMax)
  | .plen => decide (v ≤ c.pmMax)
  | .msg _ | .pm _ | .blk _ | .bi | .w _ | .h _ | .t _ | .dig _ | .status | .cmd | .hinit _ | .k _ => true

/-- Why a host action is refused, if it is (R26, R27, R29). -/
def actionProblem (c : Config) : HostAction → Option Refusal
  | .reset => none
  | .command _ => none
  | .write l v =>
    if writable l = false then some .notWritable
    else if hasElement c l = false then some .noSuchElement
    else if 2 ^ widthOf l ≤ v then some .valueTooWide
    else if legalValue c l v = false then some .illegalLength
    else none
  | .read l =>
    if readable l = false then some .notReadable
    else if hasElement c l = false then some .noSuchElement
    else none

/-- The element written: `reg[i] <- v` (R9). Only the writable registers other than CMD are stored to; the other names
change nothing here. -/
def storeElement (l : Loc) (v : Nat) (s : State) : State :=
  match l with
  | .msg i => { s with msg := s.msg.write i [BitVec.ofNat 8 v] }
  | .len => { s with len := BitVec.ofNat 64 v }
  | .pm i => { s with pm := s.pm.write i [BitVec.ofNat 8 v] }
  | .plen => { s with plen := BitVec.ofNat 64 v }
  | .blk i => { s with blk := s.blk.setIfInBounds i (BitVec.ofNat 8 v) }
  | .bi => { s with bi := BitVec.ofNat 64 v }
  | .w i => { s with w := s.w.setIfInBounds i (BitVec.ofNat 32 v) }
  | .h i => { s with h := s.h.setIfInBounds i (BitVec.ofNat 32 v) }
  | .t _ | .dig _ | .status | .cmd | .hinit _ | .k _ => s

/-- The value an element is read as (R27); CMD reads as 0 (R23). -/
def loadElement (l : Loc) (s : State) : Nat :=
  match l with
  | .msg i => (s.msgCell i).toNat
  | .len => s.len.toNat
  | .pm i => (s.pmCell i).toNat
  | .plen => s.plen.toNat
  | .blk i => (s.blk.getD i 0).toNat
  | .bi => s.bi.toNat
  | .w i => (s.w.getD i 0).toNat
  | .h i => (s.h.getD i 0).toNat
  | .t i => (s.t.getD i 0).toNat
  | .dig i => (s.dig.getD i 0).toNat
  | .status => s.status.toByte.toNat
  | .cmd => 0
  | .hinit i => (romHinit.getD i 0).toNat
  | .k i => (romK.getD i 0).toNat

/-- `Reset` (R25): the control registers are 0; every data cell is unspecified anew, so it takes the free values of the
next draw ("not required to be the same after two Resets", U1). The host's script and replies are not the core's. -/
def hostReset (s : State) : State :=
  { s with
    msg := []
    len := 0
    pm := []
    plen := 0
    blk := Vector.ofFn fun i => Config.freeByte (s.draws + 1) (.blk i)
    bi := 0
    w := Vector.ofFn fun i => Config.freeWord (s.draws + 1) (.w i)
    h := Vector.ofFn fun i => Config.freeWord (s.draws + 1) (.h i)
    t := Vector.ofFn fun i => Config.freeWord (s.draws + 1) (.t i)
    dig := Vector.ofFn fun i => Config.freeByte (s.draws + 1) (.dig i)
    status := { err := none, dv := false }
    draws := s.draws + 1 }

/-- `Command(c)` (R28): the command word is decoded, in every state by the same rule (R48), and executed. -/
def command (c : Byte) (s : State) : Result := exec (decodeCommand c) s

/-- An accepted HostWrite (R26): to CMD it is `Command(v)` (R23); to any other register it stores `v` and clears DV. -/
def hostWrite (l : Loc) (v : Nat) (s : State) : Result :=
  match l with
  | .cmd => command (BitVec.ofNat 8 v) s
  | .msg _ | .len | .pm _ | .plen | .blk _ | .bi | .w _ | .h _ | .t _ | .dig _ | .status | .hinit _ | .k _ =>
    .next (clearDv (storeElement l v s))

/-- An accepted HostRead (R27): it changes no state of the core; the host receives the value. -/
def hostRead (l : Loc) (s : State) : State := { s with replies := loadElement l s :: s.replies }

/-- One host action, refused where R29 refuses it, as one atomic step (R35). -/
def perform (a : HostAction) (s : State) : Result :=
  match actionProblem s.cfg a with
  | some q => .refused q
  | none =>
    match a with
    | .reset => .next (hostReset s)
    | .write l v => hostWrite l v s
    | .read l => .next (hostRead l s)
    | .command c => command c s

/-- The next action of the host's script, if any: the core itself "is idle between commands and keeps all state"
(R126). -/
def performNext (s : State) : Result :=
  match s.script with
  | [] => .next s
  | a :: rest => perform a { s with script := rest }

/-- `LOADMSG b0 ... b(n-1)` (R53): the message bytes, then LEN. -/
def loadMsg (bytes : List Byte) : List HostAction :=
  (bytes.zipIdx.map fun b => .write (.msg b.2) b.1.toNat) ++ [.write .len bytes.length]

/-- `HASHSEQ` for a PaddedMessage of `n` blocks (R53). -/
def hashSeq (n : Nat) : List HostAction :=
  [.command 0x01#8, .command 0x02#8] ++
    (List.replicate n [.command 0x03#8, .command 0x04#8, .command 0x05#8]).flatten ++ [.command 0x06#8]

end Sys2Proof.Machine
end

