-- ==== Sys2Proof/Machine/Step.lean ====
section
/-! DEFINITION. One step of the machine: the next host action (spec/10_state.md R25 to R29). The core fetches no
instruction from a memory (spec/20_memory.md R43): commands arrive one at a time through CMD, so the next instruction
stands at the head of the host's script. -/

namespace Sys2Proof.Machine

/-- One host action, or nothing where the host issues none (notes/assumptions/3.md). -/
def step (s : State) : Host.Outcome State Fault Refusal := performNext s

/-- `s` with the command word `w` as the host's next action: `Command(w)` (R23, R28). A command word has 8 bits (R44). -/
def State.withFetchWord (s : State) (_nbits w : Nat) : State :=
  { s with script := .command (BitVec.ofNat 8 w) :: s.script }

end Sys2Proof.Machine
end

