-- ==== Sys2Proof/WellFormed.lean ====
section
/-! DEFINITION. Well-formed terms. Every instruction is well formed: its fields are bit vectors of the width its row of
the opcode table leaves free, so the check below, that its word lies in its row, holds of all (Laws/PerInstr.lean). A
host action is well formed for a core where spec/10_state.md R26 and R27 accept it. -/

namespace Sys2Proof

/-- The instruction's command word lies in the instruction's row of the opcode table (R45, R47). -/
def Instr.wf (i : Instr) : Bool := encodeCommand i &&& (tableRow i).1 == (tableRow i).2

/-- The host action is accepted by a core with parameters `c` (R26, R27, R29). -/
def HostAction.wf (c : Config) (a : HostAction) : Bool := (Machine.actionProblem c a).isNone

end Sys2Proof
end

