-- ==== Sys2Proof/Safety.lean ====
section
/-! DEFINITION. What counts as a safe state and a safe run, in the terms the statements use: the legal lengths
(spec/10_state.md R11, R13), the invariant of the machine, runs of several commands, and which host accesses
R26 and R27 accept, written out register by register. -/

namespace Sys2Proof

/-- The instruction is one of the reserved command words (R47). -/
def Instr.isReserved : Instr → Bool
  | .init | .pad | .chunk | .sched | .compress | .digest | .hash => false
  | .reserved00 | .reserved08 _ | .reserved10 _ | .reserved20 _ | .reserved40 _ | .reserved80 _ => true

namespace Machine

/-- LEN and PLEN hold legal values (R11, R13). Every run keeps this (V4); `State.Inv` contains it. -/
def State.Legal (s : State) : Prop := s.len.toNat ≤ s.cfg.msgMax ∧ s.plen.toNat ≤ s.cfg.pmMax

/-- The invariant of the machine. -/
structure State.Inv (s : State) : Prop where
  /-- LEN and PLEN are legal (R11, R13). -/
  legal : s.Legal
  /-- MSG is in canonical form. -/
  msgWf : Memory.wf s.msg
  /-- PM is in canonical form. -/
  pmWf : Memory.wf s.pm
  /-- Every cell written in MSG exists (R10). -/
  msgBound : ∀ c ∈ s.msg, c.1 < s.cfg.msgMax
  /-- Every cell written in PM exists (R12). -/
  pmBound : ∀ c ∈ s.pm, c.1 < s.cfg.pmMax
  /-- "`ERR != 0` implies `DV = 0`" (R22). -/
  errorNotValid : s.status.err ≠ none → s.status.dv = false
  /-- DV = 1 certifies that DIG equals `Serialize(H)` (R137). -/
  validDigest : s.status.dv = true → s.dig = serialize s.h

/-- HASH rejects the empty message (R4, R114). -/
def State.rejects (s : State) : Prop := s.len = 0 ∧ s.cfg.rejectEmpty = true

/-- Several commands, one after another, ending at the first that stops. -/
def runCommands : List Instr → State → Result
  | [], s => .next s
  | i :: is, s => andThen (exec i s) (runCommands is)

/-- The stage sequence of R106 for `n` blocks: INIT, PAD, `n` times (CHUNK, SCHED, COMPRESS), DIGEST. -/
def stageSequence (n : Nat) : List Instr :=
  [.init, .pad] ++ (List.replicate n [.chunk, .sched, .compress]).flatten ++ [.digest]

/-- A HostWrite of `v` to the element is accepted (R26), register by register. -/
def writeAccepted (c : Config) (l : Loc) (v : Nat) : Prop :=
  match l with
  | .msg i => i < c.msgMax ∧ v < 2 ^ 8
  | .len => v ≤ c.msgMax
  | .pm i => i < c.pmMax ∧ v < 2 ^ 8
  | .plen => v ≤ c.pmMax
  | .blk i => i < 64 ∧ v < 2 ^ 8
  | .bi => v < 2 ^ 64
  | .w i => i < 64 ∧ v < 2 ^ 32
  | .h i => i < 8 ∧ v < 2 ^ 32
  | .cmd => v < 2 ^ 8
  | .t _ | .dig _ | .status | .hinit _ | .k _ => False

/-- A HostRead of the element is accepted (R27), register by register. -/
def readAccepted (c : Config) (l : Loc) : Prop :=
  match l with
  | .msg i => i < c.msgMax
  | .pm i => i < c.pmMax
  | .blk i => i < 64
  | .w i => i < 64
  | .h i => i < 8
  | .t i => i < 8
  | .dig i => i < 32
  | .len | .plen | .bi | .status | .cmd => True
  | .hinit _ | .k _ => False

end Machine

end Sys2Proof
end

