-- ==== Sys2Proof/Certificates/Slice0/Obligations.lean ====
section
/-! DEFINITION. The statements for the provers. Each docstring names the rules of spec/ it formalises. In every
statement about a command, `i : Instr` is the command, `s` the state before and `t` the state after. -/

open Sys2Proof Sys2Proof.Machine

/-! ### Encodings -/

/-- R45: the opcode map, tested on the whole 8-bit word. -/
def Obligations.CommandWordsDecodeByTheOpcodeMap : Prop :=
  ∀ c : Byte,
    (decodeCommand c = .init ↔ c = 0x01#8) ∧ (decodeCommand c = .pad ↔ c = 0x02#8) ∧
    (decodeCommand c = .chunk ↔ c = 0x03#8) ∧ (decodeCommand c = .sched ↔ c = 0x04#8) ∧
    (decodeCommand c = .compress ↔ c = 0x05#8) ∧ (decodeCommand c = .digest ↔ c = 0x06#8) ∧
    (decodeCommand c = .hash ↔ c = 0x07#8)

/-- R47 and the reserved rows of the opcode table: each reserved word decodes to its row, with the bits the row leaves
free (the model's form of those rows: notes/assumptions/6.md), and no other word is reserved. -/
def Obligations.ReservedWordsDecodeToTheirRows : Prop :=
  decodeCommand 0x00#8 = .reserved00 ∧
  (∀ x : BitVec 3, decodeCommand (0b00001#5 ++ x) = .reserved08 x) ∧
  (∀ x : BitVec 4, decodeCommand (0b0001#4 ++ x) = .reserved10 x) ∧
  (∀ x : BitVec 5, decodeCommand (0b001#3 ++ x) = .reserved20 x) ∧
  (∀ x : BitVec 6, decodeCommand (0b01#2 ++ x) = .reserved40 x) ∧
  (∀ x : BitVec 7, decodeCommand (0b1#1 ++ x) = .reserved80 x) ∧
  ∀ c : Byte, (decodeCommand c).isReserved = true ↔ (c.toNat = 0 ∨ 8 ≤ c.toNat)

/-- R44, R45, R47, R48: decoding the bytes of any instruction gives it back and leaves the rest, every instruction is
one byte, and every command word is the encoding of what it decodes to. -/
def Obligations.DecodeAndEncodeAgree : Prop :=
  (∀ (i : Instr) (rest : List Byte), decode (encode i ++ rest) = some (i, rest)) ∧
  (∀ i : Instr, (encode i).length = 1 ∧ i.wf = true) ∧
  ∀ (c : Byte) (rest : List Byte), ∃ i, decode (c :: rest) = some (i, rest) ∧ encode i = [c]

/-! ### Steps, reset, the host's actions -/

/-- R23, R28: a write of `c` to CMD, in either form of the action, executes the command `c` decodes to and stores
nothing; CMD reads as 0. -/
def Obligations.CmdWriteExecutesTheDecodedCommand : Prop :=
  (∀ (s : State) (c : Byte) (rest : List HostAction), s.script = .command c :: rest →
    step s = exec (decodeCommand c) { s with script := rest }) ∧
  (∀ (s : State) (c : Byte) (rest : List HostAction), s.script = .write .cmd c.toNat :: rest →
    step s = exec (decodeCommand c) { s with script := rest }) ∧
  ∀ (s : State) (rest : List HostAction), s.script = .read .cmd :: rest →
    step s = .next { s with script := rest, replies := 0 :: s.replies }

/-- R126: with no action of the host to perform, the core keeps all state (the model's form of idleness:
notes/assumptions/3.md). -/
def Obligations.IdleCoreKeepsAllState : Prop :=
  ∀ s : State, s.script = [] → step s = .next s

/-- R25, R130: Reset sets LEN, PLEN, BI and STATUS to 0 and leaves every data cell unspecified, here the free value of
a new draw (notes/assumptions/1.md: the statement holds for every value of it). -/
def Obligations.ResetClearsControlStateOnly : Prop :=
  ∀ (s : State) (rest : List HostAction), s.script = .reset :: rest →
    ∃ t, step s = .next t ∧ t.len = 0 ∧ t.plen = 0 ∧ t.bi = 0 ∧ t.status.toByte = 0#8 ∧
      t.draws = s.draws + 1 ∧
      (∀ i, t.msgCell i = Config.freeByte t.draws (.msg i)) ∧
      (∀ i, t.pmCell i = Config.freeByte t.draws (.pm i)) ∧
      (∀ i : Fin 64, t.blk[i] = Config.freeByte t.draws (.blk i)) ∧
      (∀ i : Fin 64, t.w[i] = Config.freeWord t.draws (.w i)) ∧
      (∀ i : Fin 8, t.h[i] = Config.freeWord t.draws (.h i)) ∧
      (∀ i : Fin 8, t.t[i] = Config.freeWord t.draws (.t i)) ∧
      (∀ i : Fin 32, t.dig[i] = Config.freeByte t.draws (.dig i)) ∧
      t.cfg = s.cfg ∧ t.script = rest ∧ t.replies = s.replies

/-- R26: an accepted HostWrite to a register other than CMD stores the value, clears DV and changes nothing else; a
write to CMD is the command; any other HostWrite has no step. -/
def Obligations.HostWriteStoresOneElement : Prop :=
  ∀ (s : State) (l : Loc) (v : Nat) (rest : List HostAction), s.script = .write l v :: rest →
    (writeAccepted s.cfg l v → l ≠ .cmd →
      ∃ t, step s = .next t ∧ loadElement l t = v ∧
        (∀ l' : Loc, l' ≠ l → l' ≠ .status → loadElement l' t = loadElement l' s) ∧
        t.status = { s.status with dv := false } ∧
        t.cfg = s.cfg ∧ t.draws = s.draws ∧ t.script = rest ∧ t.replies = s.replies) ∧
    (writeAccepted s.cfg l v → l = .cmd →
      step s = exec (decodeCommand (BitVec.ofNat 8 v)) { s with script := rest }) ∧
    (¬ writeAccepted s.cfg l v → ∃ q, step s = .refused q)

/-- R27: an accepted HostRead returns the value of the element and changes no state of the core, so a second one
returns the same; CMD returns 0; any other HostRead has no step. -/
def Obligations.HostReadReturnsTheElement : Prop :=
  ∀ (s : State) (l : Loc) (rest : List HostAction), s.script = .read l :: rest →
    (readAccepted s.cfg l →
      ∃ v, step s = .next { s with script := rest, replies := v :: s.replies } ∧
        v = (match l with
          | .msg i => (s.msgCell i).toNat
          | .len => s.len.toNat
          | .pm i => (s.pmCell i).toNat
          | .plen => s.plen.toNat
          | .blk i => (s.blk.toList.getD i 0).toNat
          | .bi => s.bi.toNat
          | .w i => (s.w.toList.getD i 0).toNat
          | .h i => (s.h.toList.getD i 0).toNat
          | .t i => (s.t.toList.getD i 0).toNat
          | .dig i => (s.dig.toList.getD i 0).toNat
          | .status => s.status.toByte.toNat
          | .cmd | .hinit _ | .k _ => 0) ∧
        ∀ rest', rest = .read l :: rest' →
          Host.Core.run core 2 s = .next { s with script := rest', replies := v :: v :: s.replies }) ∧
    (¬ readAccepted s.cfg l → ∃ q, step s = .refused q)

/-- R29: the refused host actions, one by one. The names of the reasons, and which one is reported where several hold,
are the model's (notes/assumptions/7.md). -/
def Obligations.RefusedHostActionsHaveNoStep : Prop :=
  ∀ (s : State) (i v : Nat) (rest : List HostAction),
    (∀ l : Loc, (l = .t i ∨ l = .dig i ∨ l = .status ∨ l = .hinit i ∨ l = .k i) →
      s.script = .write l v :: rest → step s = .refused .notWritable) ∧
    (∀ l : Loc, (l = .hinit i ∨ l = .k i) → s.script = .read l :: rest → step s = .refused .notReadable) ∧
    (∀ l : Loc, ((l = .msg i ∧ s.cfg.msgMax ≤ i) ∨ (l = .pm i ∧ s.cfg.pmMax ≤ i) ∨
        ((l = .blk i ∨ l = .w i) ∧ 64 ≤ i) ∨ (l = .h i ∧ 8 ≤ i)) →
      (s.script = .write l v :: rest ∨ s.script = .read l :: rest) → step s = .refused .noSuchElement) ∧
    (∀ l : Loc, ((l = .t i ∧ 8 ≤ i) ∨ (l = .dig i ∧ 32 ≤ i)) →
      s.script = .read l :: rest → step s = .refused .noSuchElement) ∧
    (∀ l : Loc, ((l = .msg i ∧ i < s.cfg.msgMax ∧ 2 ^ 8 ≤ v) ∨ (l = .pm i ∧ i < s.cfg.pmMax ∧ 2 ^ 8 ≤ v) ∨
        (l = .blk i ∧ i < 64 ∧ 2 ^ 8 ≤ v) ∨ (l = .w i ∧ i < 64 ∧ 2 ^ 32 ≤ v) ∨ (l = .h i ∧ i < 8 ∧ 2 ^ 32 ≤ v) ∨
        (l = .bi ∧ 2 ^ 64 ≤ v) ∨ (l = .cmd ∧ 2 ^ 8 ≤ v)) →
      s.script = .write l v :: rest → step s = .refused .valueTooWide) ∧
    (∀ l : Loc, ((l = .len ∧ s.cfg.msgMax < v) ∨ (l = .plen ∧ s.cfg.pmMax < v)) →
      s.script = .write l v :: rest →
        step s = .refused .illegalLength ∨ (2 ^ 64 ≤ v ∧ step s = .refused .valueTooWide))

/-! ### Word functions -/

/-- R60: addition modulo 2^32, in any order and grouping. -/
def Obligations.AddIsModularAndUnordered : Prop :=
  ∀ a b c : Word, (add32 a b).toNat = (a.toNat + b.toNat) % 2 ^ 32 ∧ add32 a b = add32 b a ∧
    add32 (add32 a b) c = add32 a (add32 b c)

/-- R61, R62: what a rotation and a logical shift do to each bit, for every amount the spec defines. -/
def Obligations.RotateAndShiftMoveEachBit : Prop :=
  ∀ (x : Word) (n i : Nat), 1 ≤ n → n ≤ 31 → i < 32 →
    (rotr32 x n).getLsbD i = x.getLsbD ((i + n) % 32) ∧
    (rotr32 x n).toNat = (x.toNat / 2 ^ n + x.toNat * 2 ^ (32 - n)) % 2 ^ 32 ∧
    (shr32 x n).getLsbD i = (decide (i + n ≤ 31) && x.getLsbD (i + n)) ∧
    (shr32 x n).toNat = x.toNat / 2 ^ n

/-- R63 to R66: each bit of the four sigma functions. -/
def Obligations.SigmaFunctionsBitByBit : Prop :=
  ∀ (x : Word) (i : Nat), i < 32 →
    (ssig0 x).getLsbD i =
      ((x.getLsbD ((i + 7) % 32)).xor (x.getLsbD ((i + 18) % 32))).xor (decide (i + 3 ≤ 31) && x.getLsbD (i + 3)) ∧
    (ssig1 x).getLsbD i =
      ((x.getLsbD ((i + 17) % 32)).xor (x.getLsbD ((i + 19) % 32))).xor (decide (i + 10 ≤ 31) && x.getLsbD (i + 10)) ∧
    (bsig0 x).getLsbD i =
      ((x.getLsbD ((i + 2) % 32)).xor (x.getLsbD ((i + 13) % 32))).xor (x.getLsbD ((i + 22) % 32)) ∧
    (bsig1 x).getLsbD i =
      ((x.getLsbD ((i + 6) % 32)).xor (x.getLsbD ((i + 11) % 32))).xor (x.getLsbD ((i + 25) % 32))

/-- R67, R68: choose takes the bit of `y` where `x` has a 1 and of `z` where it has a 0; majority is 1 where at least
two operands have a 1, and is symmetric. -/
def Obligations.ChooseAndMajorityBitByBit : Prop :=
  ∀ (x y z : Word) (i : Nat), i < 32 →
    (ch x y z).getLsbD i = (if x.getLsbD i then y.getLsbD i else z.getLsbD i) ∧
    ((ma x y z).getLsbD i = true ↔
      2 ≤ (x.getLsbD i).toNat + (y.getLsbD i).toNat + (z.getLsbD i).toNat) ∧
    ma x y z = ma y x z ∧ ma x y z = ma x z y

/-- R70, R71: the value of a packed Word, the bytes of an unpacked one, and that the two are inverse. -/
def Obligations.PackAndUnpackAreInverse : Prop :=
  (∀ a b c d : Byte,
    (pack32be a b c d).toNat = a.toNat * 2 ^ 24 + b.toNat * 2 ^ 16 + c.toNat * 2 ^ 8 + d.toNat ∧
    unpack32be (pack32be a b c d) = #v[a, b, c, d]) ∧
  ∀ w : Word, pack32be (unpack32be w)[0] (unpack32be w)[1] (unpack32be w)[2] (unpack32be w)[3] = w ∧
    ∀ j : Fin 4, (unpack32be w)[j].toNat = w.toNat / 2 ^ (24 - 8 * j.val) % 256

/-- R72: the eight bytes of a natural below 2^64, most significant first. -/
def Obligations.LengthFieldIsBigEndian : Prop :=
  ∀ v : Nat, v < 2 ^ 64 → (enc64be v).length = 8 ∧
    (∀ j, j < 8 → ((enc64be v).getD j 0).toNat = v / 2 ^ (8 * (7 - j)) % 256) ∧
    (enc64be v).foldl (fun acc b => 256 * acc + b.toNat) 0 = v

/-! ### Preprocessor -/

/-- R78: the length of a padded message and its five consequences. -/
def Obligations.PaddedLengthLaws : Prop :=
  ∀ m : List Byte,
    (padMessage m).length = m.length + 1 + zeroCount (m.length % 64) + 8 ∧
    (padMessage m).length = padLen m.length ∧
    padLen m.length = 64 * ((m.length + 8) / 64 + 1) ∧
    padLen m.length % 64 = 0 ∧
    m.length + 9 ≤ padLen m.length ∧ (padLen m.length = m.length + 9 ↔ m.length % 64 = 55) ∧
    (∀ n, n % 64 = 0 → m.length + 9 ≤ n → padLen m.length ≤ n) ∧
    padLen m.length ≤ m.length + 72 ∧ (padLen m.length = m.length + 72 ↔ m.length % 64 = 56) ∧
    (m.length % 64 ≤ 55 → padLen m.length = 64 * (m.length / 64) + 64) ∧
    (56 ≤ m.length % 64 → padLen m.length = 64 * (m.length / 64) + 128) ∧
    1 ≤ padLen m.length / 64

/-- R49, R75, R76, R77: what every byte of a padded message is, for messages of every length R75 allows. -/
def Obligations.PaddedMessageLayout : Prop :=
  (∀ r : Nat, r ≤ 63 → (zeroCount r : Int) = (55 - (r : Int)) % 64) ∧
  ∀ m : List Byte, m.length ≤ 2 ^ 61 - 1 →
    (∀ i, i < m.length → (padMessage m)[i]? = m[i]?) ∧
    (padMessage m)[m.length]? = some 0x80#8 ∧
    (∀ i, m.length < i → i < padLen m.length - 8 → (padMessage m)[i]? = some 0x00#8) ∧
    (∀ j, j < 8 → (padMessage m)[padLen m.length - 8 + j]? =
      some (BitVec.ofNat 8 (m.length * 8 / 2 ^ (8 * (7 - j))))) ∧
    ∀ i, padLen m.length ≤ i → (padMessage m)[i]? = none

/-- R79: PAD, byte by byte, with what it leaves unchanged; it is ignored while an error is recorded, and idempotent. -/
def Obligations.PadWritesThePaddedMessage : Prop :=
  decodeCommand 0x02#8 = .pad ∧
  (∀ s : State, s.status.err = none → s.len.toNat ≤ s.cfg.msgMax →
    ∃ t, exec .pad s = .next t ∧
      t.plen.toNat = padLen s.len.toNat ∧ padLen s.len.toNat ≤ s.cfg.pmMax ∧
      (∀ a, a < s.len.toNat → t.pmCell a = s.msgCell a) ∧
      t.pmCell s.len.toNat = 0x80#8 ∧
      (∀ a, s.len.toNat < a → a < padLen s.len.toNat - 8 → t.pmCell a = 0x00#8) ∧
      (∀ j, j < 8 → t.pmCell (padLen s.len.toNat - 8 + j) =
        BitVec.ofNat 8 (s.len.toNat * 8 / 2 ^ (8 * (7 - j)))) ∧
      (∀ a, padLen s.len.toNat ≤ a → t.pmCell a = s.pmCell a) ∧
      (∀ a, t.msgCell a = s.msgCell a) ∧ t.msg = s.msg ∧
      t.status = { err := none, dv := false } ∧
      t.cfg = s.cfg ∧ t.len = s.len ∧ t.bi = s.bi ∧ t.blk = s.blk ∧ t.w = s.w ∧ t.h = s.h ∧ t.t = s.t ∧
      t.dig = s.dig ∧ t.draws = s.draws ∧ t.script = s.script ∧ t.replies = s.replies) ∧
  (∀ s : State, s.status.err ≠ none → exec .pad s = .next { s with status := { s.status with dv := false } }) ∧
  ∀ s t : State, exec .pad s = .next t → exec .pad t = .next t

/-! ### Chunker -/

/-- R80: the Blocks of a sequence whose length is a multiple of 64 are its disjoint 64-byte slices, in order. -/
def Obligations.ChunkingPartitionsTheBytes : Prop :=
  ∀ p : List Byte, p.length % 64 = 0 →
    (chunkBytes p).length = p.length / 64 ∧
    (∀ (j : Nat) (k : Fin 64), j < p.length / 64 →
      ((chunkBytes p)[j]?.map fun b => b[k]) = p[64 * j + k.val]?) ∧
    ((chunkBytes p).map Vector.toList).flatten = p

/-- R82: CHUNK delivers the next Block and advances BI without a wrap, or raises and writes nothing, the alignment check
first; after PAD it succeeds exactly `PadLen(LEN) / 64` times from BI = 0 and then fails. -/
def Obligations.ChunkDeliversOrReports : Prop :=
  decodeCommand 0x03#8 = .chunk ∧
  (∀ s : State, s.status.err ≠ none → exec .chunk s = .next { s with status := { s.status with dv := false } }) ∧
  (∀ s : State, s.status.err = none → s.plen.toNat % 64 ≠ 0 →
    exec .chunk s = .next { s with status := { err := some .internalInvariantViolation, dv := false } }) ∧
  (∀ s : State, s.status.err = none → s.plen.toNat % 64 = 0 → 64 * (s.bi.toNat + 1) > s.plen.toNat →
    exec .chunk s = .next { s with status := { err := some .internalInvariantViolation, dv := false } }) ∧
  (∀ s : State, s.status.err = none → s.plen.toNat ≤ s.cfg.pmMax → s.plen.toNat % 64 = 0 →
    64 * (s.bi.toNat + 1) ≤ s.plen.toNat →
    ∃ t, exec .chunk s = .next t ∧
      (∀ k : Fin 64, t.blk[k] = s.pmCell (64 * s.bi.toNat + k.val)) ∧
      t.bi.toNat = s.bi.toNat + 1 ∧ t.status = { err := none, dv := false } ∧
      (∀ a, t.msgCell a = s.msgCell a) ∧ (∀ a, t.pmCell a = s.pmCell a) ∧ t.msg = s.msg ∧ t.pm = s.pm ∧
      t.cfg = s.cfg ∧ t.len = s.len ∧ t.plen = s.plen ∧ t.w = s.w ∧ t.h = s.h ∧ t.t = s.t ∧ t.dig = s.dig ∧
      t.draws = s.draws ∧ t.script = s.script ∧ t.replies = s.replies) ∧
  ∀ s : State, s.status.err = none → s.len.toNat ≤ s.cfg.msgMax → s.bi = 0 →
    (∀ n, n ≤ padLen s.len.toNat / 64 →
      ∃ t, runCommands (.pad :: List.replicate n .chunk) s = .next t ∧ t.status.err = none ∧ t.bi.toNat = n) ∧
    ∃ t, runCommands (.pad :: List.replicate (padLen s.len.toNat / 64 + 1) .chunk) s = .next t ∧
      t.status.err = some .internalInvariantViolation ∧ t.bi.toNat = padLen s.len.toNat / 64

/-! ### MessageScheduler -/

/-- R85, R86, R87: the 64 Words of a Block. -/
def Obligations.ScheduleWordsOfABlock : Prop :=
  ∀ b : Vector Byte 64,
    (∀ i : Fin 16, ((schedule b).toList.getD i 0).toNat =
      (b.toList.getD (4 * i) 0).toNat * 2 ^ 24 + (b.toList.getD (4 * i + 1) 0).toNat * 2 ^ 16 +
        (b.toList.getD (4 * i + 2) 0).toNat * 2 ^ 8 + (b.toList.getD (4 * i + 3) 0).toNat) ∧
    ∀ i, 16 ≤ i → i < 64 → (schedule b).toList.getD i 0 =
      ssig1 ((schedule b).toList.getD (i - 2) 0) + (schedule b).toList.getD (i - 7) 0 +
        ssig0 ((schedule b).toList.getD (i - 15) 0) + (schedule b).toList.getD (i - 16) 0

/-- R88: SCHED writes the schedule of BLK to W, whatever W held, and nothing else but DV; it is ignored while an error
is recorded, and idempotent. -/
def Obligations.SchedExpandsTheBlock : Prop :=
  decodeCommand 0x04#8 = .sched ∧
  (∀ s : State, s.status.err = none →
    ∃ t, exec .sched s = .next t ∧
      (∀ i, i < 16 → t.w.toList.getD i 0 =
        pack32be (s.blk.toList.getD (4 * i) 0) (s.blk.toList.getD (4 * i + 1) 0)
          (s.blk.toList.getD (4 * i + 2) 0) (s.blk.toList.getD (4 * i + 3) 0)) ∧
      (∀ i, 16 ≤ i → i < 64 → t.w.toList.getD i 0 =
        add32 (add32 (add32 (ssig1 (t.w.toList.getD (i - 2) 0)) (t.w.toList.getD (i - 7) 0))
          (ssig0 (t.w.toList.getD (i - 15) 0))) (t.w.toList.getD (i - 16) 0)) ∧
      t.w = schedule s.blk ∧ t.status = { err := none, dv := false } ∧
      (∀ a, t.msgCell a = s.msgCell a) ∧ (∀ a, t.pmCell a = s.pmCell a) ∧ t.msg = s.msg ∧ t.pm = s.pm ∧
      t.cfg = s.cfg ∧ t.len = s.len ∧ t.plen = s.plen ∧ t.blk = s.blk ∧ t.bi = s.bi ∧ t.h = s.h ∧ t.t = s.t ∧
      t.dig = s.dig ∧ t.draws = s.draws ∧ t.script = s.script ∧ t.replies = s.replies) ∧
  (∀ (s : State) (w : Vector Word 64), s.status.err = none → exec .sched { s with w := w } = exec .sched s) ∧
  (∀ s : State, s.status.err ≠ none → exec .sched s = .next { s with status := { s.status with dv := false } }) ∧
  ∀ s t : State, exec .sched s = .next t → exec .sched t = .next t

/-! ### Compressor -/

/-- R91: one round, every right-hand side with the values before the round. -/
def Obligations.RoundComputesTwoWordsAndMovesSix : Prop :=
  ∀ (t : Vector Word 8) (w k : Word),
    let sum1 := t[7] + bsig1 t[4] + ch t[4] t[5] t[6] + w + k
    let sum2 := bsig0 t[0] + ma t[0] t[1] t[2]
    roundStep t w k = #v[sum1 + sum2, t[0], t[1], t[2], t[3] + sum1, t[4], t[5], t[6]]

/-- R90, R92, R93, R94: COMPRESS runs 64 rounds from the HashState with `W[i]` and `K[i]`, leaves the working Words in T,
accumulates them into H, and changes nothing else but DV; it is ignored while an error is recorded, and it is not
idempotent. -/
def Obligations.CompressRunsSixtyFourRounds : Prop :=
  decodeCommand 0x05#8 = .compress ∧
  (∀ s : State, s.status.err = none →
    ∃ t, exec .compress s = .next t ∧
      (∃ r : Nat → Vector Word 8, r 0 = s.h ∧
        (∀ i : Fin 64, r (i.val + 1) = roundStep (r i.val) s.w[i] romK[i]) ∧ t.t = r 64) ∧
      (∀ k : Fin 8, t.h[k] = add32 s.h[k] t.t[k]) ∧ t.h = compressState s.h s.w ∧
      t.status = { err := none, dv := false } ∧
      (∀ a, t.msgCell a = s.msgCell a) ∧ (∀ a, t.pmCell a = s.pmCell a) ∧ t.msg = s.msg ∧ t.pm = s.pm ∧
      t.cfg = s.cfg ∧ t.len = s.len ∧ t.plen = s.plen ∧ t.blk = s.blk ∧ t.bi = s.bi ∧ t.w = s.w ∧ t.dig = s.dig ∧
      t.draws = s.draws ∧ t.script = s.script ∧ t.replies = s.replies) ∧
  (∀ s : State, s.status.err ≠ none →
    exec .compress s = .next { s with status := { s.status with dv := false } }) ∧
  ∃ s t u : State, s.status.err = none ∧ exec .compress s = .next t ∧ exec .compress t = .next u ∧
    u.w = s.w ∧ u.h ≠ t.h

/-! ### DigestAssembler -/

/-- R100, R101: DIGEST serialises H, most significant byte first, sets DV and changes nothing else; it is ignored while
an error is recorded, and idempotent; different HashStates give different Digests. -/
def Obligations.DigestSerialisesTheHashState : Prop :=
  decodeCommand 0x06#8 = .digest ∧
  (∀ s : State, s.status.err = none →
    ∃ t, exec .digest s = .next t ∧
      (∀ (k : Fin 8) (j : Fin 4), (t.dig.toList.getD (4 * k.val + j.val) 0).toNat =
        s.h[k].toNat / 2 ^ (24 - 8 * j.val) % 256) ∧
      t.dig = serialize s.h ∧ t.status = { err := none, dv := true } ∧
      (∀ a, t.msgCell a = s.msgCell a) ∧ (∀ a, t.pmCell a = s.pmCell a) ∧ t.msg = s.msg ∧ t.pm = s.pm ∧
      t.cfg = s.cfg ∧ t.len = s.len ∧ t.plen = s.plen ∧ t.blk = s.blk ∧ t.bi = s.bi ∧ t.w = s.w ∧ t.h = s.h ∧
      t.t = s.t ∧ t.draws = s.draws ∧ t.script = s.script ∧ t.replies = s.replies) ∧
  (∀ s : State, s.status.err ≠ none → exec .digest s = .next { s with status := { s.status with dv := false } }) ∧
  (∀ s t : State, exec .digest s = .next t → exec .digest t = .next t) ∧
  ∀ h h' : Vector Word 8, serialize h = serialize h' → h = h'

/-! ### Hasher sequencer -/

/-- R104: INIT in every state; it is idempotent, and INIT and PAD may come in either order. -/
def Obligations.InitBeginsACall : Prop :=
  decodeCommand 0x01#8 = .init ∧
  (∀ s : State, ∃ t, exec .init s = .next t ∧
    (∀ k : Fin 8, t.h[k] = romHinit[k]) ∧ t.bi = 0 ∧ t.status = { err := none, dv := false } ∧
    (∀ a, t.msgCell a = s.msgCell a) ∧ (∀ a, t.pmCell a = s.pmCell a) ∧ t.msg = s.msg ∧ t.pm = s.pm ∧
    t.cfg = s.cfg ∧ t.len = s.len ∧ t.plen = s.plen ∧ t.blk = s.blk ∧ t.w = s.w ∧ t.t = s.t ∧ t.dig = s.dig ∧
    t.draws = s.draws ∧ t.script = s.script ∧ t.replies = s.replies) ∧
  (∀ s t : State, exec .init s = .next t → exec .init t = .next t) ∧
  ∀ s : State, s.status.err = none → runCommands [.init, .pad] s = runCommands [.pad, .init] s

/-- R107: a reserved word raises InternalInvariantViolation where no error is recorded and is ignored otherwise. -/
def Obligations.ReservedWordsRaiseOrAreIgnored : Prop :=
  (∀ c : Byte, (c.toNat = 0 ∨ 8 ≤ c.toNat) → (decodeCommand c).isReserved = true) ∧
  ∀ (i : Instr) (s : State), i.isReserved = true →
    (s.status.err = none →
      exec i s = .next { s with status := { err := some .internalInvariantViolation, dv := false } }) ∧
    (s.status.err ≠ none → exec i s = .next { s with status := { s.status with dv := false } })

/-- R1, R105: HASH on a message it does not reject leaves its SHA-256 digest in DIG and every register as R105 says, in
every state of STATUS; a message it rejects records InvalidInput and writes nothing else. -/
def Obligations.HashComputesSha256 : Prop :=
  decodeCommand 0x07#8 = .hash ∧
  (∀ s : State, s.rejects →
    exec .hash s = .next { s with status := { err := some .invalidInput, dv := false } }) ∧
  ∀ s : State, s.len.toNat ≤ s.cfg.msgMax → ¬ s.rejects →
    ∃ t, exec .hash s = .next t ∧
      t.dig = sha256 s.message ∧ t.dig = serialize t.h ∧ t.status = { err := none, dv := true } ∧
      t.plen.toNat = padLen s.len.toNat ∧ t.bi.toNat = padLen s.len.toNat / 64 ∧
      (∀ a, a < padLen s.len.toNat → some (t.pmCell a) = (padMessage s.message)[a]?) ∧
      (∀ a, padLen s.len.toNat ≤ a → t.pmCell a = s.pmCell a) ∧
      (chunkBytes (padMessage s.message)).getLast? = some t.blk ∧ t.w = schedule t.blk ∧
      (∃ h, h = ((chunkBytes (padMessage s.message)).dropLast).foldl
          (fun h b => compressState h (schedule b)) romHinit ∧
        t.t = workingWords h t.w ∧ t.h = accumulate h t.t) ∧
      (∀ a, t.msgCell a = s.msgCell a) ∧ t.msg = s.msg ∧ t.len = s.len ∧ t.cfg = s.cfg ∧
      t.draws = s.draws ∧ t.script = s.script ∧ t.replies = s.replies

/-- R106: where HASH does not reject, it leaves exactly the state the stage sequence leaves. -/
def Obligations.HashEqualsTheStageSequence : Prop :=
  ∀ s : State, s.len.toNat ≤ s.cfg.msgMax → (s.cfg.rejectEmpty = false ∨ s.len ≠ 0) →
    ∃ t, exec .hash s = .next t ∧ runCommands (stageSequence (padLen s.len.toNat / 64)) s = .next t

/-- R10, R124, R131: what HASH leaves does not depend on any register but LEN and the message bytes below it. -/
def Obligations.HashDependsOnlyOnTheMessage : Prop :=
  ∀ s s' t t' : State, s.cfg = s'.cfg → s.len = s'.len → ¬ s.rejects →
    (∀ a, a < s.len.toNat → s.msgCell a = s'.msgCell a) →
    exec .hash s = .next t → exec .hash s' = .next t' →
      t.dig = t'.dig ∧ t.h = t'.h ∧ t.t = t'.t ∧ t.w = t'.w ∧ t.blk = t'.blk ∧ t.bi = t'.bi ∧ t.plen = t'.plen ∧
        t.status = t'.status ∧ ∀ a, a < padLen s.len.toNat → t.pmCell a = t'.pmCell a

/-! ### Errors -/

/-- R117: after an error the state is the state before the command, except STATUS, which records the kind. -/
def Obligations.ErrorsArePrecise : Prop :=
  ∀ (i : Instr) (s t : State) (e : ErrorKind), exec i s = .next t → t.status.err = some e →
    t = { s with status := { err := some e, dv := false } } ∧
    t.status.toByte = (match e with | .invalidInput => 0x01#8 | .internalInvariantViolation => 0x02#8)

/-- R118: while an error is recorded no run of other commands than INIT and HASH changes any state; INIT and HASH run as
if none were recorded; Reset and the host's accesses remain available and accesses keep ERR. -/
def Obligations.ErrorIsSticky : Prop :=
  (∀ (s : State) (is : List Instr), s.status.err ≠ none → s.status.dv = false →
    (∀ i ∈ is, i ≠ .init ∧ i ≠ .hash) → runCommands is s = .next s) ∧
  (∀ (s : State) (st : Status), exec .init { s with status := st } = exec .init s ∧
    exec .hash { s with status := st } = exec .hash s) ∧
  ∀ (s : State) (rest : List HostAction), s.status.err ≠ none →
    (s.script = .reset :: rest → ∃ t, step s = .next t ∧ t.status.err = none) ∧
    (∀ l v, s.script = .write l v :: rest → writeAccepted s.cfg l v → l ≠ .cmd →
      ∃ t, step s = .next t ∧ t.status = { s.status with dv := false }) ∧
    (∀ l, s.script = .read l :: rest → readAccepted s.cfg l →
      ∃ t, step s = .next t ∧ t.status = s.status)

/-- R114: the one cause of InvalidInput. -/
def Obligations.InvalidInputOnlyFromRejectedHash : Prop :=
  (∀ s t : State, exec .hash s = .next t →
    (t.status.err = some .invalidInput ↔ s.len = 0 ∧ s.cfg.rejectEmpty = true)) ∧
  ∀ (i : Instr) (s t : State), i ≠ .hash → exec i s = .next t → t.status.err = some .invalidInput →
    s.status.err = some .invalidInput

/-- R115: the three causes of InternalInvariantViolation; after PAD and inside HASH the alignment cause cannot arise. -/
def Obligations.InvariantViolationHasThreeCauses : Prop :=
  (∀ (i : Instr) (s t : State), s.status.err = none → exec i s = .next t →
    (t.status.err = some .internalInvariantViolation ↔
      (i = .chunk ∧ s.plen.toNat % 64 ≠ 0) ∨ (i = .chunk ∧ 64 * (s.bi.toNat + 1) > s.plen.toNat) ∨
        i.isReserved = true)) ∧
  (∀ s t : State, exec .hash s = .next t → t.status.err ≠ some .internalInvariantViolation) ∧
  ∀ s t : State, s.status.err = none → exec .pad s = .next t → t.plen.toNat % 64 = 0

/-- R109, R121: with legal lengths every command answers a next state, and none but the causes of R114 and R115 leaves an
error where there was none. -/
def Obligations.EveryCommandCompletes : Prop :=
  ∀ (i : Instr) (s : State), s.Legal →
    ∃ t, exec i s = .next t ∧
      (s.status.err = none → ¬ (i = .hash ∧ s.rejects) → i.isReserved = false →
        ¬ (i = .chunk ∧ (s.plen.toNat % 64 ≠ 0 ∨ 64 * (s.bi.toNat + 1) > s.plen.toNat)) →
        t.status.err = none)

/-- R9 and the model's choice (notes/assumptions/4.md): a command whose access would pass the end of a buffer, which only
a state with an illegal LEN or PLEN can ask for, stops with the fault, and no command is ever refused. -/
def Obligations.OnlyIllegalLengthsFault : Prop :=
  (∀ (i : Instr) (s : State) (q : Refusal), exec i s ≠ .refused q) ∧
  (∀ s : State, s.status.err = none → s.cfg.msgMax < s.len.toNat → exec .pad s = .fault .beyondBuffer) ∧
  (∀ s : State, s.cfg.msgMax < s.len.toNat → exec .hash s = .fault .beyondBuffer) ∧
  (∀ s : State, s.status.err = none → s.plen.toNat % 64 = 0 → 64 * (s.bi.toNat + 1) ≤ s.plen.toNat →
    s.cfg.pmMax < 64 * (s.bi.toNat + 1) → exec .chunk s = .fault .beyondBuffer) ∧
  ∀ (i : Instr) (s : State) (f : Fault), exec i s = .fault f → ¬ s.Legal

/-! ### Whole-machine rules -/

/-- R39: what no command modifies. -/
def Obligations.CommandsKeepTheirInputs : Prop :=
  ∀ (i : Instr) (s t : State), exec i s = .next t →
    t.msg = s.msg ∧ t.len = s.len ∧ (∀ a, t.msgCell a = s.msgCell a) ∧
    (i = .chunk → t.pm = s.pm ∧ t.plen = s.plen ∧ ∀ a, t.pmCell a = s.pmCell a) ∧
    (i = .sched → t.blk = s.blk) ∧ (i = .compress → t.w = s.w) ∧ (i = .digest → t.h = s.h)

/-- R22: DV after a command is 1 exactly when the command is a DIGEST or HASH that succeeds. -/
def Obligations.DigestValidAfterDigestOrHashOnly : Prop :=
  ∀ (i : Instr) (s t : State), exec i s = .next t →
    (t.status.dv = true ↔ (i = .digest ∧ s.status.err = none) ∨ (i = .hash ∧ ¬ s.rejects))

/-- R22, R113: STATUS as a byte. -/
def Obligations.StatusByteFields : Prop :=
  ∀ st : Status,
    st.toByte.extractLsb' 0 2 = (match st.err with
      | none => 0#2
      | some .invalidInput => 1#2
      | some .internalInvariantViolation => 2#2) ∧
    st.toByte.getLsbD 2 = st.dv ∧ st.toByte.extractLsb' 3 5 = 0#5

/-- R15, R108: how a command moves the block index. -/
def Obligations.BlockIndexMovesByOneOrRestarts : Prop :=
  ∀ (i : Instr) (s t : State), exec i s = .next t →
    t.bi = s.bi ∨ (i = .chunk ∧ t.bi.toNat = s.bi.toNat + 1 ∧ 64 * (s.bi.toNat + 1) ≤ s.plen.toNat) ∨
      (i = .init ∧ t.bi = 0) ∨ (i = .hash ∧ t.bi.toNat = padLen s.len.toNat / 64)

/-- R3, R4: no step changes the parameters, which the state carries (the model's form: notes/assumptions/2.md). -/
def Obligations.StepKeepsTheParameters : Prop :=
  ∀ s t : State, step s = .next t → t.cfg = s.cfg

/-- The invariant of the machine (R10 to R13, R22, R137, V4) holds after a reset, for every choice of the parameters
and every draw (notes/assumptions/1.md to 3.md). -/
def Obligations.InvariantHoldsAtReset : Prop :=
  State.reset.Inv ∧ ∀ (c : Config) (draw : Nat), (State.afterReset c draw).Inv

/-- Every step, with any host action and any command word, keeps the invariant of the machine: the buffers' canonical
form and bounds, the legal lengths (R11, R13), "`ERR != 0` implies `DV = 0`" (R22) and "DV = 1 only where DIG equals
`Serialize(H)`" (R137). -/
def Obligations.EveryStepKeepsTheInvariant : Prop :=
  ∀ s t : State, s.Inv → step s = .next t → t.Inv
end

