-- ==== Sys2Proof/Laws/State.lean ====
section
/-! SUPPORT. One lemma per field per update of the state: what each named update leaves in each field. -/

namespace Sys2Proof.Machine

variable (s : State)

/-! ### `clearDv` -/

@[simp] theorem clearDv_cfg : (clearDv s).cfg = s.cfg := rfl
@[simp] theorem clearDv_msg : (clearDv s).msg = s.msg := rfl
@[simp] theorem clearDv_len : (clearDv s).len = s.len := rfl
@[simp] theorem clearDv_pm : (clearDv s).pm = s.pm := rfl
@[simp] theorem clearDv_plen : (clearDv s).plen = s.plen := rfl
@[simp] theorem clearDv_blk : (clearDv s).blk = s.blk := rfl
@[simp] theorem clearDv_bi : (clearDv s).bi = s.bi := rfl
@[simp] theorem clearDv_w : (clearDv s).w = s.w := rfl
@[simp] theorem clearDv_h : (clearDv s).h = s.h := rfl
@[simp] theorem clearDv_t : (clearDv s).t = s.t := rfl
@[simp] theorem clearDv_dig : (clearDv s).dig = s.dig := rfl
@[simp] theorem clearDv_status : (clearDv s).status = { s.status with dv := false } := rfl
@[simp] theorem clearDv_draws : (clearDv s).draws = s.draws := rfl
@[simp] theorem clearDv_script : (clearDv s).script = s.script := rfl
@[simp] theorem clearDv_replies : (clearDv s).replies = s.replies := rfl

/-! ### `setDv` -/

@[simp] theorem setDv_cfg : (setDv s).cfg = s.cfg := rfl
@[simp] theorem setDv_msg : (setDv s).msg = s.msg := rfl
@[simp] theorem setDv_len : (setDv s).len = s.len := rfl
@[simp] theorem setDv_pm : (setDv s).pm = s.pm := rfl
@[simp] theorem setDv_plen : (setDv s).plen = s.plen := rfl
@[simp] theorem setDv_blk : (setDv s).blk = s.blk := rfl
@[simp] theorem setDv_bi : (setDv s).bi = s.bi := rfl
@[simp] theorem setDv_w : (setDv s).w = s.w := rfl
@[simp] theorem setDv_h : (setDv s).h = s.h := rfl
@[simp] theorem setDv_t : (setDv s).t = s.t := rfl
@[simp] theorem setDv_dig : (setDv s).dig = s.dig := rfl
@[simp] theorem setDv_status : (setDv s).status = { s.status with dv := true } := rfl
@[simp] theorem setDv_draws : (setDv s).draws = s.draws := rfl
@[simp] theorem setDv_script : (setDv s).script = s.script := rfl
@[simp] theorem setDv_replies : (setDv s).replies = s.replies := rfl

/-! ### `raise` -/

@[simp] theorem raise_cfg (e : ErrorKind) : (raise e s).cfg = s.cfg := rfl
@[simp] theorem raise_msg (e : ErrorKind) : (raise e s).msg = s.msg := rfl
@[simp] theorem raise_len (e : ErrorKind) : (raise e s).len = s.len := rfl
@[simp] theorem raise_pm (e : ErrorKind) : (raise e s).pm = s.pm := rfl
@[simp] theorem raise_plen (e : ErrorKind) : (raise e s).plen = s.plen := rfl
@[simp] theorem raise_blk (e : ErrorKind) : (raise e s).blk = s.blk := rfl
@[simp] theorem raise_bi (e : ErrorKind) : (raise e s).bi = s.bi := rfl
@[simp] theorem raise_w (e : ErrorKind) : (raise e s).w = s.w := rfl
@[simp] theorem raise_h (e : ErrorKind) : (raise e s).h = s.h := rfl
@[simp] theorem raise_t (e : ErrorKind) : (raise e s).t = s.t := rfl
@[simp] theorem raise_dig (e : ErrorKind) : (raise e s).dig = s.dig := rfl
@[simp] theorem raise_status (e : ErrorKind) : (raise e s).status = { err := some e, dv := false } := rfl
@[simp] theorem raise_draws (e : ErrorKind) : (raise e s).draws = s.draws := rfl
@[simp] theorem raise_script (e : ErrorKind) : (raise e s).script = s.script := rfl
@[simp] theorem raise_replies (e : ErrorKind) : (raise e s).replies = s.replies := rfl

/-! ### `clearError` -/

@[simp] theorem clearError_cfg : (clearError s).cfg = s.cfg := rfl
@[simp] theorem clearError_msg : (clearError s).msg = s.msg := rfl
@[simp] theorem clearError_len : (clearError s).len = s.len := rfl
@[simp] theorem clearError_pm : (clearError s).pm = s.pm := rfl
@[simp] theorem clearError_plen : (clearError s).plen = s.plen := rfl
@[simp] theorem clearError_blk : (clearError s).blk = s.blk := rfl
@[simp] theorem clearError_bi : (clearError s).bi = s.bi := rfl
@[simp] theorem clearError_w : (clearError s).w = s.w := rfl
@[simp] theorem clearError_h : (clearError s).h = s.h := rfl
@[simp] theorem clearError_t : (clearError s).t = s.t := rfl
@[simp] theorem clearError_dig : (clearError s).dig = s.dig := rfl
@[simp] theorem clearError_status : (clearError s).status = { err := none, dv := false } := rfl
@[simp] theorem clearError_draws : (clearError s).draws = s.draws := rfl
@[simp] theorem clearError_script : (clearError s).script = s.script := rfl
@[simp] theorem clearError_replies : (clearError s).replies = s.replies := rfl

/-! ### `initStage` -/

@[simp] theorem initStage_cfg : (initStage s).cfg = s.cfg := rfl
@[simp] theorem initStage_msg : (initStage s).msg = s.msg := rfl
@[simp] theorem initStage_len : (initStage s).len = s.len := rfl
@[simp] theorem initStage_pm : (initStage s).pm = s.pm := rfl
@[simp] theorem initStage_plen : (initStage s).plen = s.plen := rfl
@[simp] theorem initStage_blk : (initStage s).blk = s.blk := rfl
@[simp] theorem initStage_bi : (initStage s).bi = 0 := rfl
@[simp] theorem initStage_w : (initStage s).w = s.w := rfl
@[simp] theorem initStage_h : (initStage s).h = romHinit := rfl
@[simp] theorem initStage_t : (initStage s).t = s.t := rfl
@[simp] theorem initStage_dig : (initStage s).dig = s.dig := rfl
@[simp] theorem initStage_status : (initStage s).status = { err := none, dv := false } := rfl
@[simp] theorem initStage_draws : (initStage s).draws = s.draws := rfl
@[simp] theorem initStage_script : (initStage s).script = s.script := rfl
@[simp] theorem initStage_replies : (initStage s).replies = s.replies := rfl

/-! ### `padded` -/

@[simp] theorem padded_cfg : (padded s).cfg = s.cfg := rfl
@[simp] theorem padded_msg : (padded s).msg = s.msg := rfl
@[simp] theorem padded_len : (padded s).len = s.len := rfl
@[simp] theorem padded_pm : (padded s).pm = s.pm.write 0 (padMessage s.message) := rfl
@[simp] theorem padded_plen : (padded s).plen = BitVec.ofNat 64 (padMessage s.message).length := rfl
@[simp] theorem padded_blk : (padded s).blk = s.blk := rfl
@[simp] theorem padded_bi : (padded s).bi = s.bi := rfl
@[simp] theorem padded_w : (padded s).w = s.w := rfl
@[simp] theorem padded_h : (padded s).h = s.h := rfl
@[simp] theorem padded_t : (padded s).t = s.t := rfl
@[simp] theorem padded_dig : (padded s).dig = s.dig := rfl
@[simp] theorem padded_status : (padded s).status = { s.status with dv := false } := rfl
@[simp] theorem padded_draws : (padded s).draws = s.draws := rfl
@[simp] theorem padded_script : (padded s).script = s.script := rfl
@[simp] theorem padded_replies : (padded s).replies = s.replies := rfl

/-! ### `delivered` -/

@[simp] theorem delivered_cfg : (delivered s).cfg = s.cfg := rfl
@[simp] theorem delivered_msg : (delivered s).msg = s.msg := rfl
@[simp] theorem delivered_len : (delivered s).len = s.len := rfl
@[simp] theorem delivered_pm : (delivered s).pm = s.pm := rfl
@[simp] theorem delivered_plen : (delivered s).plen = s.plen := rfl
@[simp] theorem delivered_blk : (delivered s).blk = s.pmBlock s.bi.toNat := rfl
@[simp] theorem delivered_bi : (delivered s).bi = s.bi + 1 := rfl
@[simp] theorem delivered_w : (delivered s).w = s.w := rfl
@[simp] theorem delivered_h : (delivered s).h = s.h := rfl
@[simp] theorem delivered_t : (delivered s).t = s.t := rfl
@[simp] theorem delivered_dig : (delivered s).dig = s.dig := rfl
@[simp] theorem delivered_status : (delivered s).status = { s.status with dv := false } := rfl
@[simp] theorem delivered_draws : (delivered s).draws = s.draws := rfl
@[simp] theorem delivered_script : (delivered s).script = s.script := rfl
@[simp] theorem delivered_replies : (delivered s).replies = s.replies := rfl

/-! ### `schedStage` -/

@[simp] theorem schedStage_cfg : (schedStage s).cfg = s.cfg := rfl
@[simp] theorem schedStage_msg : (schedStage s).msg = s.msg := rfl
@[simp] theorem schedStage_len : (schedStage s).len = s.len := rfl
@[simp] theorem schedStage_pm : (schedStage s).pm = s.pm := rfl
@[simp] theorem schedStage_plen : (schedStage s).plen = s.plen := rfl
@[simp] theorem schedStage_blk : (schedStage s).blk = s.blk := rfl
@[simp] theorem schedStage_bi : (schedStage s).bi = s.bi := rfl
@[simp] theorem schedStage_w : (schedStage s).w = schedule s.blk := rfl
@[simp] theorem schedStage_h : (schedStage s).h = s.h := rfl
@[simp] theorem schedStage_t : (schedStage s).t = s.t := rfl
@[simp] theorem schedStage_dig : (schedStage s).dig = s.dig := rfl
@[simp] theorem schedStage_status : (schedStage s).status = { s.status with dv := false } := rfl
@[simp] theorem schedStage_draws : (schedStage s).draws = s.draws := rfl
@[simp] theorem schedStage_script : (schedStage s).script = s.script := rfl
@[simp] theorem schedStage_replies : (schedStage s).replies = s.replies := rfl

/-! ### `compressStage` -/

@[simp] theorem compressStage_cfg : (compressStage s).cfg = s.cfg := rfl
@[simp] theorem compressStage_msg : (compressStage s).msg = s.msg := rfl
@[simp] theorem compressStage_len : (compressStage s).len = s.len := rfl
@[simp] theorem compressStage_pm : (compressStage s).pm = s.pm := rfl
@[simp] theorem compressStage_plen : (compressStage s).plen = s.plen := rfl
@[simp] theorem compressStage_blk : (compressStage s).blk = s.blk := rfl
@[simp] theorem compressStage_bi : (compressStage s).bi = s.bi := rfl
@[simp] theorem compressStage_w : (compressStage s).w = s.w := rfl
@[simp] theorem compressStage_h : (compressStage s).h = compressState s.h s.w := rfl
@[simp] theorem compressStage_t : (compressStage s).t = workingWords s.h s.w := rfl
@[simp] theorem compressStage_dig : (compressStage s).dig = s.dig := rfl
@[simp] theorem compressStage_status : (compressStage s).status = { s.status with dv := false } := rfl
@[simp] theorem compressStage_draws : (compressStage s).draws = s.draws := rfl
@[simp] theorem compressStage_script : (compressStage s).script = s.script := rfl
@[simp] theorem compressStage_replies : (compressStage s).replies = s.replies := rfl

/-! ### `digestStage` -/

@[simp] theorem digestStage_cfg : (digestStage s).cfg = s.cfg := rfl
@[simp] theorem digestStage_msg : (digestStage s).msg = s.msg := rfl
@[simp] theorem digestStage_len : (digestStage s).len = s.len := rfl
@[simp] theorem digestStage_pm : (digestStage s).pm = s.pm := rfl
@[simp] theorem digestStage_plen : (digestStage s).plen = s.plen := rfl
@[simp] theorem digestStage_blk : (digestStage s).blk = s.blk := rfl
@[simp] theorem digestStage_bi : (digestStage s).bi = s.bi := rfl
@[simp] theorem digestStage_w : (digestStage s).w = s.w := rfl
@[simp] theorem digestStage_h : (digestStage s).h = s.h := rfl
@[simp] theorem digestStage_t : (digestStage s).t = s.t := rfl
@[simp] theorem digestStage_dig : (digestStage s).dig = serialize s.h := rfl
@[simp] theorem digestStage_status : (digestStage s).status = { s.status with dv := true } := rfl
@[simp] theorem digestStage_draws : (digestStage s).draws = s.draws := rfl
@[simp] theorem digestStage_script : (digestStage s).script = s.script := rfl
@[simp] theorem digestStage_replies : (digestStage s).replies = s.replies := rfl

/-! ### `hostRead` -/

@[simp] theorem hostRead_cfg (l : Loc) : (hostRead l s).cfg = s.cfg := rfl
@[simp] theorem hostRead_msg (l : Loc) : (hostRead l s).msg = s.msg := rfl
@[simp] theorem hostRead_len (l : Loc) : (hostRead l s).len = s.len := rfl
@[simp] theorem hostRead_pm (l : Loc) : (hostRead l s).pm = s.pm := rfl
@[simp] theorem hostRead_plen (l : Loc) : (hostRead l s).plen = s.plen := rfl
@[simp] theorem hostRead_blk (l : Loc) : (hostRead l s).blk = s.blk := rfl
@[simp] theorem hostRead_bi (l : Loc) : (hostRead l s).bi = s.bi := rfl
@[simp] theorem hostRead_w (l : Loc) : (hostRead l s).w = s.w := rfl
@[simp] theorem hostRead_h (l : Loc) : (hostRead l s).h = s.h := rfl
@[simp] theorem hostRead_t (l : Loc) : (hostRead l s).t = s.t := rfl
@[simp] theorem hostRead_dig (l : Loc) : (hostRead l s).dig = s.dig := rfl
@[simp] theorem hostRead_status (l : Loc) : (hostRead l s).status = s.status := rfl
@[simp] theorem hostRead_draws (l : Loc) : (hostRead l s).draws = s.draws := rfl
@[simp] theorem hostRead_script (l : Loc) : (hostRead l s).script = s.script := rfl
@[simp] theorem hostRead_replies (l : Loc) : (hostRead l s).replies = loadElement l s :: s.replies := rfl

/-! ### `hostReset` -/

@[simp] theorem hostReset_cfg : (hostReset s).cfg = s.cfg := rfl
@[simp] theorem hostReset_msg : (hostReset s).msg = [] := rfl
@[simp] theorem hostReset_len : (hostReset s).len = 0 := rfl
@[simp] theorem hostReset_pm : (hostReset s).pm = [] := rfl
@[simp] theorem hostReset_plen : (hostReset s).plen = 0 := rfl
@[simp] theorem hostReset_blk : (hostReset s).blk = Vector.ofFn fun i => Config.freeByte (s.draws + 1) (.blk i) := rfl
@[simp] theorem hostReset_bi : (hostReset s).bi = 0 := rfl
@[simp] theorem hostReset_w : (hostReset s).w = Vector.ofFn fun i => Config.freeWord (s.draws + 1) (.w i) := rfl
@[simp] theorem hostReset_h : (hostReset s).h = Vector.ofFn fun i => Config.freeWord (s.draws + 1) (.h i) := rfl
@[simp] theorem hostReset_t : (hostReset s).t = Vector.ofFn fun i => Config.freeWord (s.draws + 1) (.t i) := rfl
@[simp] theorem hostReset_dig : (hostReset s).dig = Vector.ofFn fun i => Config.freeByte (s.draws + 1) (.dig i) := rfl
@[simp] theorem hostReset_status : (hostReset s).status = { err := none, dv := false } := rfl
@[simp] theorem hostReset_draws : (hostReset s).draws = s.draws + 1 := rfl
@[simp] theorem hostReset_script : (hostReset s).script = s.script := rfl
@[simp] theorem hostReset_replies : (hostReset s).replies = s.replies := rfl

end Sys2Proof.Machine
end

