-- ==== Sys2Proof/Laws/Memory.lean ====
section
/-! SUPPORT. The byte buffers: what a write leaves at each address, that it keeps the canonical form and the bound, and
that buffers in canonical form with equal contents are equal. -/

namespace Sys2Proof.Machine

namespace Memory

@[simp] theorem lookup_nil (a : Nat) : lookup [] a = none := rfl

theorem lookup_eq_none_of_forall {m : Memory} {a : Nat} (h : ∀ c ∈ m, c.1 ≠ a) : m.lookup a = none := by
  induction m with
  | nil => rfl
  | cons c m ih =>
    obtain ⟨k, b⟩ := c
    have hk : k ≠ a := h (k, b) (by simp)
    simp only [lookup, hk, if_false]
    exact ih fun c hc => h c (by simp [hc])

theorem lookup_append (m n : Memory) (a : Nat) : lookup (m ++ n) a = (m.lookup a).or (n.lookup a) := by
  induction m with
  | nil => simp [lookup]
  | cons c m ih =>
    obtain ⟨k, b⟩ := c
    by_cases hk : k = a <;> simp [lookup, hk, ih]

theorem lookup_filter (m : Memory) (p : Nat → Bool) (a : Nat) :
    lookup (m.filter fun c => p c.1) a = if p a then m.lookup a else none := by
  induction m with
  | nil => simp
  | cons c m ih =>
    obtain ⟨k, b⟩ := c
    by_cases hk : k = a
    · subst hk
      cases hp : p k <;> simp [lookup, hp, ih]
    · cases hp : p k <;> simp [lookup, hp, hk, ih]

theorem mem_cells {a : Nat} {bs : List Byte} {c : Host.Cell} (h : c ∈ cells a bs) :
    a ≤ c.1 ∧ c.1 < a + bs.length := by
  induction bs generalizing a with
  | nil => simp [cells] at h
  | cons b bs ih =>
    rcases List.mem_cons.1 h with rfl | h
    · simp
    · have := ih h
      simp only [List.length_cons]
      omega

theorem lookup_cells (a : Nat) (bs : List Byte) (x : Nat) :
    lookup (cells a bs) x = if a ≤ x then bs[x - a]? else none := by
  induction bs generalizing a with
  | nil => simp [cells]
  | cons b bs ih =>
    by_cases hx : a = x
    · subst hx; simp [cells, lookup]
    · by_cases h : a ≤ x
      · have h1 : a + 1 ≤ x := by omega
        have h2 : x - a = (x - (a + 1)) + 1 := by omega
        simp [cells, lookup, hx, ih, h, h1, h2]
      · have h1 : ¬ a + 1 ≤ x := by omega
        simp [cells, lookup, hx, ih, h, h1]

/-- A read after a write: the written byte inside the written range, the old content everywhere else. -/
theorem lookup_write (m : Memory) (a : Nat) (bs : List Byte) (x : Nat) :
    (m.write a bs).lookup x = if a ≤ x ∧ x < a + bs.length then bs[x - a]? else m.lookup x := by
  have h1 := lookup_filter m (fun k => decide (k < a)) x
  have h2 := lookup_filter m (fun k => decide (a + bs.length ≤ k)) x
  simp only [decide_eq_true_eq] at h1 h2
  rw [write, lookup_append, lookup_append, h1, lookup_cells, h2]
  by_cases hlo : x < a
  · have : ¬ a ≤ x := by omega
    have h3 : ¬ a + bs.length ≤ x := by omega
    simp [hlo, this, h3]
  · by_cases hhi : x < a + bs.length
    · have ha : a ≤ x := by omega
      have hb : x - a < bs.length := by omega
      simp [hlo, ha, hhi, List.getElem?_eq_getElem hb]
    · have ha : a ≤ x := by omega
      have hb : bs.length ≤ x - a := by omega
      have h3 : a + bs.length ≤ x := by omega
      simp [hlo, ha, hhi, h3, List.getElem?_eq_none hb]

theorem wf_cells (a : Nat) (bs : List Byte) : wf (cells a bs) := by
  induction bs generalizing a with
  | nil => simp [cells]
  | cons b bs ih =>
    refine List.pairwise_cons.2 ⟨fun c hc => ?_, ih (a + 1)⟩
    have := mem_cells hc
    simp only
    omega

/-- Every write keeps the canonical form. -/
theorem wf_write {m : Memory} (h : wf m) (a : Nat) (bs : List Byte) : wf (m.write a bs) := by
  rw [wf, write, List.pairwise_append, List.pairwise_append]
  refine ⟨⟨h.filter _, wf_cells a bs, fun x hx y hy => ?_⟩, h.filter _, fun x hx y hy => ?_⟩
  · have h1 := (List.mem_filter.1 hx).2
    have h2 := mem_cells hy
    simp only [decide_eq_true_eq] at h1
    omega
  · have h2 := (List.mem_filter.1 hy).2
    simp only [decide_eq_true_eq] at h2
    rcases List.mem_append.1 hx with hx | hx
    · have h1 := (List.mem_filter.1 hx).2
      simp only [decide_eq_true_eq] at h1
      omega
    · have h1 := mem_cells hx
      omega

/-- A write that ends within the capacity keeps every listed address within it. -/
theorem bound_write {m : Memory} {cap a : Nat} {bs : List Byte} (h : ∀ c ∈ m, c.1 < cap)
    (hb : a + bs.length ≤ cap) : ∀ c ∈ m.write a bs, c.1 < cap := by
  intro c hc
  rcases List.mem_append.1 hc with hc | hc
  · rcases List.mem_append.1 hc with hc | hc
    · exact h c (List.mem_filter.1 hc).1
    · have := mem_cells hc
      omega
  · exact h c (List.mem_filter.1 hc).1

/-- Writing the same bytes again changes nothing. -/
theorem write_write (m : Memory) (a : Nat) (bs : List Byte) : (m.write a bs).write a bs = m.write a bs := by
  have hlo : (m.write a bs).filter (fun c => c.1 < a) = m.filter (fun c => c.1 < a) := by
    rw [write, List.filter_append, List.filter_append, List.filter_filter, List.filter_filter]
    have h1 : (cells a bs).filter (fun c => decide (c.1 < a)) = [] := by
      refine List.filter_eq_nil_iff.2 fun c hc => ?_
      have := mem_cells hc
      simp only [decide_eq_true_eq]
      omega
    have h2 : m.filter (fun c => decide (c.1 < a) && decide (a + bs.length ≤ c.1)) = [] := by
      refine List.filter_eq_nil_iff.2 fun c _ => ?_
      simp only [Bool.and_eq_true, decide_eq_true_eq]
      omega
    simp [h1, h2]
  have hhi : (m.write a bs).filter (fun c => a + bs.length ≤ c.1) = m.filter (fun c => a + bs.length ≤ c.1) := by
    rw [write, List.filter_append, List.filter_append, List.filter_filter, List.filter_filter]
    have h1 : (cells a bs).filter (fun c => decide (a + bs.length ≤ c.1)) = [] := by
      refine List.filter_eq_nil_iff.2 fun c hc => ?_
      have := mem_cells hc
      simp only [decide_eq_true_eq]
      omega
    have h2 : m.filter (fun c => decide (a + bs.length ≤ c.1) && decide (c.1 < a)) = [] := by
      refine List.filter_eq_nil_iff.2 fun c _ => ?_
      simp only [Bool.and_eq_true, decide_eq_true_eq]
      omega
    simp [h1, h2]
  conv_lhs => rw [write, hlo, hhi]
  rfl

theorem lookup_eq_none_of_lt {m : Memory} {k a : Nat} (h : ∀ c ∈ m, k < c.1) (ha : a ≤ k) : m.lookup a = none :=
  lookup_eq_none_of_forall fun c hc => by have := h c hc; omega

/-- Buffers in canonical form that read the same at every address are the same data. -/
theorem ext_of_wf {m n : Memory} (hm : wf m) (hn : wf n) (h : ∀ a, m.lookup a = n.lookup a) : m = n := by
  induction m generalizing n with
  | nil =>
    cases n with
    | nil => rfl
    | cons c n => exact absurd (h c.1) (by simp [lookup])
  | cons c m ih =>
    obtain ⟨k, b⟩ := c
    have hm1 : ∀ c ∈ m, k < c.1 := (List.pairwise_cons.1 hm).1
    cases n with
    | nil => exact absurd (h k) (by simp [lookup])
    | cons d n =>
      obtain ⟨j, e⟩ := d
      have hn1 : ∀ c ∈ n, j < c.1 := (List.pairwise_cons.1 hn).1
      have hkj : k = j := by
        have h1 := h k
        have h2 := h j
        simp only [lookup, if_true] at h1 h2
        by_cases hjk : j = k
        · exact hjk.symm
        · rw [if_neg hjk] at h1
          rw [if_neg (Ne.symm hjk)] at h2
          rcases Nat.lt_or_ge k j with hlt | hge
          · rw [lookup_eq_none_of_lt hn1 (by omega)] at h1
            exact absurd h1 (by simp)
          · rw [lookup_eq_none_of_lt hm1 (by omega)] at h2
            exact absurd h2 (by simp)
      subst hkj
      have hbe : b = e := by simpa [lookup] using h k
      subst hbe
      have : m = n := by
        refine ih (List.pairwise_cons.1 hm).2 (List.pairwise_cons.1 hn).2 fun a => ?_
        by_cases hak : k = a
        · subst hak
          rw [lookup_eq_none_of_lt hm1 (Nat.le_refl k), lookup_eq_none_of_lt hn1 (Nat.le_refl k)]
        · simpa [lookup, hak] using h a
      rw [this]

end Memory

end Sys2Proof.Machine
end

