-- ==== Sys2Proof/Laws/Ops.lean ====
section
/-! SUPPORT. What the shared operations can answer: the guard of a buffer access, sequencing, and the rule that an error
is sticky. -/

namespace Sys2Proof.Machine

theorem withinBuffer_of_le {cap last : Nat} (h : last ≤ cap) (r : Result) : withinBuffer cap last r = r :=
  if_pos h

theorem withinBuffer_of_lt {cap last : Nat} (h : cap < last) (r : Result) :
    withinBuffer cap last r = .fault .beyondBuffer := if_neg (by omega)

/-- A guarded access that answers a next state was in bounds and is the access. -/
theorem withinBuffer_next {cap last : Nat} {r : Result} {t : State} (h : withinBuffer cap last r = .next t) :
    last ≤ cap ∧ r = .next t := by
  by_cases hl : last ≤ cap
  · exact ⟨hl, by rwa [withinBuffer_of_le hl] at h⟩
  · rw [withinBuffer_of_lt (by omega)] at h
    cases h

@[simp] theorem andThen_next (s : State) (k : State → Result) : andThen (.next s) k = k s := rfl

@[simp] theorem andThen_fault (f : Fault) (k : State → Result) : andThen (.fault f) k = .fault f := rfl

@[simp] theorem andThen_refused (q : Refusal) (k : State → Result) : andThen (.refused q) k = .refused q := rfl

/-- A sequence that answers a next state went through a next state. -/
theorem andThen_eq_next {r : Result} {k : State → Result} {t : State} (h : andThen r k = .next t) :
    ∃ u, r = .next u ∧ k u = .next t := by
  cases r with
  | next u => exact ⟨u, rfl, h⟩
  | fault f => cases h
  | refused q => cases h

theorem andThen_assoc (r : Result) (f g : State → Result) :
    andThen (andThen r f) g = andThen r fun s => andThen (f s) g := by
  cases r <;> rfl

theorem unlessError_of_none {s : State} (h : s.status.err = none) (run : State → Result) :
    unlessError s run = run s := by
  simp [unlessError, h]

theorem unlessError_of_ne_none {s : State} (h : s.status.err ≠ none) (run : State → Result) :
    unlessError s run = .next (clearDv s) := by
  simp [unlessError, Option.isSome_iff_ne_none, h]

/-- A gated command that answers a next state either was ignored or ran. -/
theorem unlessError_eq_next {s t : State} {run : State → Result} (h : unlessError s run = .next t) :
    (s.status.err ≠ none ∧ t = clearDv s) ∨ (s.status.err = none ∧ run s = .next t) := by
  by_cases he : s.status.err = none
  · exact .inr ⟨he, by rwa [unlessError_of_none he] at h⟩
  · rw [unlessError_of_ne_none he] at h
    cases h
    exact .inl ⟨he, rfl⟩

theorem runCommands_append (is js : List Instr) (s : State) :
    runCommands (is ++ js) s = andThen (runCommands is s) (runCommands js) := by
  induction is generalizing s with
  | nil => rfl
  | cons i is ih =>
    rw [List.cons_append, runCommands, runCommands, andThen_assoc]
    congr 1
    funext u
    exact ih u

theorem clearDv_of_dv_false {s : State} (h : s.status.dv = false) : clearDv s = s := by
  obtain ⟨_, _, _, _, _, _, _, _, _, _, _, ⟨_, _⟩, _, _, _⟩ := s
  simp only at h
  subst h
  rfl

@[simp] theorem message_length (s : State) : s.message.length = s.len.toNat := by simp [State.message]

@[simp] theorem enc64be_length (v : Nat) : (enc64be v).length = 8 := rfl

end Sys2Proof.Machine
end

