-- ==== Sys2Proof/Laws/Commands.lean ====
section
/-! SUPPORT. What each command can do: one inversion lemma per stage and per command, "if it answers next t, then ...". -/

namespace Sys2Proof.Machine

/-- PAD's body, where it answers a next state: the two accesses were within MSG and PM, and the padded message is in PM. -/
theorem padStage_next {s t : State} (h : padStage s = .next t) :
    s.len.toNat ≤ s.cfg.msgMax ∧ (padMessage s.message).length ≤ s.cfg.pmMax ∧
      t = padded s := by
  obtain ⟨h1, h⟩ := withinBuffer_next h
  obtain ⟨h2, h⟩ := withinBuffer_next h
  cases h
  exact ⟨h1, h2, rfl⟩

/-- The delivery of a Block, where it answers a next state: the Block lay within PM, and BI advanced. -/
theorem deliverBlock_next {s t : State} (h : deliverBlock s = .next t) :
    64 * s.bi.toNat + 64 ≤ s.cfg.pmMax ∧ t = delivered s := by
  obtain ⟨h1, h⟩ := withinBuffer_next h
  cases h
  exact ⟨h1, rfl⟩

/-- CHUNK's body, where it answers a next state: one of the two errors, or a delivery. -/
theorem chunkStage_next {s t : State} (h : chunkStage s = .next t) :
    ((s.plen.toNat % 64 ≠ 0 ∨ 64 * (s.bi.toNat + 1) > s.plen.toNat) ∧ t = raise .internalInvariantViolation s) ∨
    (s.plen.toNat % 64 = 0 ∧ 64 * (s.bi.toNat + 1) ≤ s.plen.toNat ∧ deliverBlock s = .next t) := by
  unfold chunkStage at h
  split at h
  · next h1 => cases h; exact .inl ⟨.inl h1, rfl⟩
  · next h1 =>
    split at h
    · next h2 => cases h; exact .inl ⟨.inr h2, rfl⟩
    · next h2 => exact .inr ⟨by omega, by omega, h⟩

/-- A stage of HASH's loop, where it answers a next state. -/
theorem hashBlock_next {s t : State} (h : hashBlock s = .next t) :
    ∃ u, deliverBlock s = .next u ∧ t = compressStage (schedStage u) := by
  obtain ⟨u, hu, h⟩ := andThen_eq_next h
  cases h
  exact ⟨u, hu, rfl⟩

/-- A property every iteration keeps is kept by the whole loop. -/
theorem hashBlocks_induction {P : State → Prop} (step : ∀ s t, P s → hashBlock s = .next t → P t) :
    ∀ (n : Nat) {s t : State}, P s → hashBlocks n s = .next t → P t := by
  intro n
  induction n with
  | zero => intro s t hp h; cases h; exact hp
  | succ n ih =>
    intro s t hp h
    obtain ⟨u, hu, h⟩ := andThen_eq_next h
    exact ih (step s u hp hu) h

/-- What the loop of HASH never touches. -/
theorem hashBlocks_frame {n : Nat} {s t : State} (h : hashBlocks n s = .next t) :
    t.cfg = s.cfg ∧ t.msg = s.msg ∧ t.len = s.len ∧ t.pm = s.pm ∧ t.plen = s.plen ∧ t.dig = s.dig ∧
      t.status.err = s.status.err ∧ t.draws = s.draws ∧ t.script = s.script ∧ t.replies = s.replies := by
  refine hashBlocks_induction
    (P := fun t => t.cfg = s.cfg ∧ t.msg = s.msg ∧ t.len = s.len ∧ t.pm = s.pm ∧ t.plen = s.plen ∧ t.dig = s.dig ∧
      t.status.err = s.status.err ∧ t.draws = s.draws ∧ t.script = s.script ∧ t.replies = s.replies)
    (fun u v hu hv => ?_) n ⟨rfl, rfl, rfl, rfl, rfl, rfl, rfl, rfl, rfl, rfl⟩ h
  obtain ⟨x, hx, rfl⟩ := hashBlock_next hv
  obtain ⟨-, rfl⟩ := deliverBlock_next hx
  exact hu

/-- HASH, where it answers a next state: the rejection, or PAD, the loop and DIGEST, or the document's internal check
(which cannot fail). -/
theorem execHash_next {s t : State} (h : execHash s = .next t) :
    (s.rejects ∧ t = raise .invalidInput s) ∨
    (¬ s.rejects ∧ ∃ u, padStage (initStage s) = .next u ∧
      ((u.plen.toNat % 64 ≠ 0 ∧ t = raise .internalInvariantViolation u) ∨
        (u.plen.toNat % 64 = 0 ∧ ∃ v, hashBlocks (u.plen.toNat / 64) u = .next v ∧ t = digestStage v))) := by
  unfold execHash at h
  split at h
  · next hr => cases h; exact .inl ⟨hr, rfl⟩
  · next hr =>
    obtain ⟨u, hu, h⟩ := andThen_eq_next h
    refine .inr ⟨hr, u, hu, ?_⟩
    split at h
    · next h1 => cases h; exact .inl ⟨h1, rfl⟩
    · next h1 =>
      obtain ⟨v, hv, h⟩ := andThen_eq_next h
      cases h
      exact .inr ⟨by omega, v, hv, rfl⟩

/-- SCHED where no error is recorded. -/
theorem execSched_of_none {s : State} (h : s.status.err = none) : execSched s = .next (schedStage s) :=
  unlessError_of_none h _

/-- COMPRESS where no error is recorded. -/
theorem execCompress_of_none {s : State} (h : s.status.err = none) : execCompress s = .next (compressStage s) :=
  unlessError_of_none h _

/-- DIGEST where no error is recorded. -/
theorem execDigest_of_none {s : State} (h : s.status.err = none) : execDigest s = .next (digestStage s) :=
  unlessError_of_none h _

/-- A reserved word where no error is recorded. -/
theorem reservedWord_of_none {s : State} (h : s.status.err = none) :
    reservedWord s = .next (raise .internalInvariantViolation s) := unlessError_of_none h _

/-- HASH on a message it rejects. -/
theorem execHash_of_rejects {s : State} (h : s.rejects) : execHash s = .next (raise .invalidInput s) := if_pos h

/-- HASH on a message it does not reject. -/
theorem execHash_of_not_rejects {s : State} (h : ¬ s.rejects) :
    execHash s = andThen (padStage (initStage s)) fun u =>
      if u.plen.toNat % 64 ≠ 0 then .next (raise .internalInvariantViolation u)
      else andThen (hashBlocks (u.plen.toNat / 64) u) fun v => .next (digestStage v) := if_neg h

/-- While an error is recorded, every command but INIT and HASH is ignored (R28, R118). -/
theorem exec_of_error {i : Instr} {s : State} (hi : i ≠ .init) (hh : i ≠ .hash) (he : s.status.err ≠ none) :
    exec i s = .next (clearDv s) := by
  cases i with
  | init => exact absurd rfl hi
  | hash => exact absurd rfl hh
  | pad => exact unlessError_of_ne_none he padStage
  | chunk => exact unlessError_of_ne_none he chunkStage
  | sched => exact unlessError_of_ne_none he fun s => .next (schedStage s)
  | compress => exact unlessError_of_ne_none he fun s => .next (compressStage s)
  | digest => exact unlessError_of_ne_none he fun s => .next (digestStage s)
  | reserved00 | reserved08 _ | reserved10 _ | reserved20 _ | reserved40 _ | reserved80 _ =>
    exact unlessError_of_ne_none he fun s => .next (raise .internalInvariantViolation s)

/-- Every reserved instruction has the meaning of R107. -/
theorem exec_of_isReserved {i : Instr} (s : State) (h : i.isReserved = true) : exec i s = reservedWord s := by
  cases i <;> first | rfl | cases h

/-- Everything a command that answers a next state can have done: it was ignored, raised an error before any write,
restarted the call, ran its stage, or hashed. -/
theorem exec_next {i : Instr} {s t : State} (h : exec i s = .next t) :
    (i ≠ .init ∧ i ≠ .hash ∧ s.status.err ≠ none ∧ t = clearDv s) ∨
    (i = .init ∧ t = initStage s) ∨
    (i = .pad ∧ s.status.err = none ∧ padStage s = .next t) ∨
    (i = .chunk ∧ s.status.err = none ∧ chunkStage s = .next t) ∨
    (i = .sched ∧ s.status.err = none ∧ t = schedStage s) ∨
    (i = .compress ∧ s.status.err = none ∧ t = compressStage s) ∨
    (i = .digest ∧ s.status.err = none ∧ t = digestStage s) ∨
    (i = .hash ∧ execHash s = .next t) ∨
    (i.isReserved = true ∧ s.status.err = none ∧ t = raise .internalInvariantViolation s) := by
  have reserved {j : Instr} (hj : j.isReserved = true) (h : reservedWord s = .next t) :
      (j ≠ .init ∧ j ≠ .hash ∧ s.status.err ≠ none ∧ t = clearDv s) ∨
        (j.isReserved = true ∧ s.status.err = none ∧ t = raise .internalInvariantViolation s) := by
    rcases unlessError_eq_next h with ⟨he, rfl⟩ | ⟨he, h⟩
    · exact .inl ⟨(by intro e; subst e; cases hj), (by intro e; subst e; cases hj), he, rfl⟩
    · cases h
      exact .inr ⟨hj, he, rfl⟩
  cases i with
  | init => cases h; simp
  | pad => rcases unlessError_eq_next h with ⟨he, rfl⟩ | ⟨he, h⟩ <;> simp [*]
  | chunk => rcases unlessError_eq_next h with ⟨he, rfl⟩ | ⟨he, h⟩ <;> simp [*]
  | sched =>
    rcases unlessError_eq_next (run := fun s => .next (schedStage s)) h with ⟨he, rfl⟩ | ⟨he, h⟩ <;> [skip; cases h] <;>
      simp [*]
  | compress =>
    rcases unlessError_eq_next (run := fun s => .next (compressStage s)) h with ⟨he, rfl⟩ | ⟨he, h⟩ <;> [skip; cases h] <;>
      simp [*]
  | digest =>
    rcases unlessError_eq_next (run := fun s => .next (digestStage s)) h with ⟨he, rfl⟩ | ⟨he, h⟩ <;> [skip; cases h] <;>
      simp [*]
  | hash => exact .inr (.inr (.inr (.inr (.inr (.inr (.inr (.inl ⟨rfl, h⟩)))))))
  | reserved00 => rcases reserved (j := .reserved00) rfl h with h | h <;> simp [h]
  | reserved08 x => rcases reserved (j := .reserved08 x) rfl h with h | h <;> simp [h]
  | reserved10 x => rcases reserved (j := .reserved10 x) rfl h with h | h <;> simp [h]
  | reserved20 x => rcases reserved (j := .reserved20 x) rfl h with h | h <;> simp [h]
  | reserved40 x => rcases reserved (j := .reserved40 x) rfl h with h | h <;> simp [h]
  | reserved80 x => rcases reserved (j := .reserved80 x) rfl h with h | h <;> simp [h]

/-- Everything a step that answers a next state can have done (R25 to R28, R126). -/
theorem step_next {s t : State} (h : step s = .next t) :
    (s.script = [] ∧ t = s) ∨
    ∃ a rest, s.script = a :: rest ∧ actionProblem s.cfg a = none ∧
      ((a = .reset ∧ t = hostReset { s with script := rest }) ∨
        (∃ l v, a = .write l v ∧ l ≠ .cmd ∧ t = clearDv (storeElement l v { s with script := rest })) ∨
        (∃ l, a = .read l ∧ t = hostRead l { s with script := rest }) ∨
        (∃ c : Byte, (a = .command c ∨ ∃ v, a = .write .cmd v ∧ c = BitVec.ofNat 8 v) ∧
          exec (decodeCommand c) { s with script := rest } = .next t)) := by
  unfold step performNext at h
  cases hs : s.script with
  | nil => rw [hs] at h; cases h; exact .inl ⟨rfl, rfl⟩
  | cons a rest =>
    rw [hs] at h
    simp only [perform] at h
    split at h
    · cases h
    · next hp =>
      refine .inr ⟨a, rest, rfl, hp, ?_⟩
      cases a with
      | reset => cases h; exact .inl ⟨rfl, rfl⟩
      | read l => cases h; exact .inr (.inr (.inl ⟨l, rfl, rfl⟩))
      | command c => exact .inr (.inr (.inr ⟨c, .inl rfl, h⟩))
      | write l v =>
        by_cases hl : l = .cmd
        · subst hl
          exact .inr (.inr (.inr ⟨BitVec.ofNat 8 v, .inr ⟨v, rfl, rfl⟩, h⟩))
        · refine .inr (.inl ⟨l, v, rfl, hl, ?_⟩)
          cases l <;> first | (cases h; rfl) | exact absurd rfl hl

/-- What a HostWrite never touches. -/
theorem storeElement_frame (l : Loc) (v : Nat) (s : State) :
    (storeElement l v s).cfg = s.cfg ∧ (storeElement l v s).t = s.t ∧ (storeElement l v s).dig = s.dig ∧
      (storeElement l v s).status = s.status ∧ (storeElement l v s).draws = s.draws ∧
      (storeElement l v s).script = s.script ∧ (storeElement l v s).replies = s.replies := by
  cases l <;> exact ⟨rfl, rfl, rfl, rfl, rfl, rfl, rfl⟩

end Sys2Proof.Machine
end

