-- ==== Sys2Proof/Laws/PerInstr.lean ====
section
/-! SUPPORT. Per-instruction laws, one lemma per constructor of Instr. Family TableRow: the instruction's command word
lies in its row of spec/opcode_table.json, so every instruction is well formed. -/

namespace Sys2Proof.Laws.TableRow

/-- The command word of the instruction, under the mask of its row, is the row's match. -/
def Statement (i : Instr) : Prop := i.wf = true

theorem init : Statement .init := rfl
theorem pad : Statement .pad := rfl
theorem chunk : Statement .chunk := rfl
theorem sched : Statement .sched := rfl
theorem compress : Statement .compress := rfl
theorem digest : Statement .digest := rfl
theorem hash : Statement .hash := rfl
theorem reserved00 : Statement .reserved00 := rfl
theorem reserved08 (low : BitVec 3) : Statement (.reserved08 low) := by
  revert low; simp only [Statement]; decide
theorem reserved10 (low : BitVec 4) : Statement (.reserved10 low) := by
  revert low; simp only [Statement]; decide
theorem reserved20 (low : BitVec 5) : Statement (.reserved20 low) := by
  revert low; simp only [Statement]; decide
theorem reserved40 (low : BitVec 6) : Statement (.reserved40 low) := by
  revert low; simp only [Statement]; decide
theorem reserved80 (low : BitVec 7) : Statement (.reserved80 low) := by
  revert low; simp only [Statement]; decide

end Sys2Proof.Laws.TableRow
end

