-- ==== Sys2Proof/Tests/Slice0.lean ====
section
/-! SUPPORT. Tests of the model. Every expected value is taken from the spec's tables and worked examples
(spec/30_encoding.md, spec/95_test_vectors.md sections 1 to 3, the examples in the rules); each test names its source.
The last part gives, for each statement of Certificates/Slice0/Obligations.lean with hypotheses, a state and operands
that meet them. -/

namespace Sys2Proof.Tests

open Sys2Proof Sys2Proof.Machine

/-- A small core: MSG_MAX = 200 (so PM_MAX = 256), REJECT_EMPTY = 0. -/
def cfg200 : Config := { msgCapacity := ⟨200, by decide⟩, rejectEmpty := false }

/-- The same with REJECT_EMPTY = 1. -/
def cfg200r : Config := { msgCapacity := ⟨200, by decide⟩, rejectEmpty := true }

/-- A state with the message "abc" and recognisable contents everywhere else. -/
def base : State where
  cfg := cfg200
  msg := [(0, 0x61), (1, 0x62), (2, 0x63)]
  len := 3
  pm := []
  plen := 0
  blk := Vector.replicate 64 0xEE
  bi := 0
  w := Vector.replicate 64 0
  h := Vector.replicate 8 0
  t := Vector.replicate 8 0x55555555
  dig := Vector.replicate 32 0xDD
  status := { err := none, dv := false }
  draws := 0
  script := []
  replies := []

/-- `base` with an error recorded. -/
def failed : State := { base with status := { err := some .internalInvariantViolation, dv := false } }

/-- `base` with the PM of spec/95 section 3.2, `PM[i] = i` for `i < 192`, and the lengths given. -/
def chunkAt (plen bi : Reg64) : State :=
  { base with pm := (List.range 192).map fun i => (i, BitVec.ofNat 8 i), plen := plen, bi := bi }

/-- The test holds of the next state. -/
def onNext (r : Result) (p : State → Bool) : Bool :=
  match r with
  | .next s => p s
  | .fault _ | .refused _ => false

/-- The step is refused for this reason. -/
def refusedFor (r : Result) (q : Refusal) : Bool :=
  match r with
  | .refused q' => q' == q
  | .next _ | .fault _ => false

theorem next_of_onNext {r : Result} {p : State → Bool} (h : onNext r p = true) : ∃ t, r = .next t ∧ p t = true := by
  cases r with
  | next t => exact ⟨t, rfl, h⟩
  | fault f => cases h
  | refused q => cases h

/-! ### Well-formed terms: each check refuses its ill-formed host action (R29) -/

theorem test_wf_not_writable : HostAction.wf cfg200 (.write (.t 0) 0) = false := by decide
theorem test_wf_not_readable : HostAction.wf cfg200 (.read (.hinit 0)) = false := by decide
theorem test_wf_no_such_element : HostAction.wf cfg200 (.write (.msg 200) 0) = false := by decide
theorem test_wf_no_such_element_read : HostAction.wf cfg200 (.read (.dig 32)) = false := by decide
theorem test_wf_value_too_wide : HostAction.wf cfg200 (.write (.blk 0) 256) = false := by decide
theorem test_wf_illegal_len : HostAction.wf cfg200 (.write .len 201) = false := by decide
theorem test_wf_illegal_plen : HostAction.wf cfg200 (.write .plen 257) = false := by decide
theorem test_wf_accepts : HostAction.wf cfg200 (.write .plen 256) = true := by decide
theorem test_refused_step :
    refusedFor (step { base with script := [.write .status 0] }) .notWritable = true := by decide

/-! ### Command words, bit by bit (R44, R45, R47) -/

theorem test_word_init : decode [0b00000001#8] = some (.init, []) := by decide
theorem test_word_pad : decode [0b00000010#8] = some (.pad, []) := by decide
theorem test_word_chunk : decode [0b00000011#8] = some (.chunk, []) := by decide
theorem test_word_sched : decode [0b00000100#8] = some (.sched, []) := by decide
theorem test_word_compress : decode [0b00000101#8] = some (.compress, []) := by decide
theorem test_word_digest : decode [0b00000110#8] = some (.digest, []) := by decide
theorem test_word_hash : decode [0b00000111#8] = some (.hash, []) := by decide
theorem test_word_reserved00 : decode [0b00000000#8] = some (.reserved00, []) := by decide
theorem test_word_reserved08 : decode [0b00001001#8] = some (.reserved08 0b001, []) := by decide
theorem test_word_reserved10 : decode [0b00010111#8] = some (.reserved10 0b0111, []) := by decide
theorem test_word_reserved20 : decode [0b00111111#8] = some (.reserved20 0b11111, []) := by decide
theorem test_word_reserved40 : decode [0b01000001#8] = some (.reserved40 0b000001, []) := by decide
theorem test_word_reserved80 : decode [0b11110111#8] = some (.reserved80 0b1110111, []) := by decide
theorem test_table_word_not_8_bits : decodeTableWord 16 1 = none := by decide

/-! ### Word functions (the vectors of spec/95 section 3.1 and the examples of R60 to R72) -/

theorem test_add32 : add32 0x6A09E667 0x5D6AEBCD = 0xC774D234 ∧ add32 0xFFFFFFFF 1 = 0 := by decide
theorem test_rotr32 : rotr32 0x12345678 4 = 0x81234567 ∧ rotr32 0x12345678 25 = 0x1A2B3C09 := by decide
theorem test_shr32 : shr32 0xFFFFFFFF 3 = 0x1FFFFFFF ∧ shr32 0x80000000 31 = 1 := by decide
theorem test_ssig0 : ssig0 0x12345678 = 0xE7FCE6EE ∧ ssig0 1 = 0x02004000 := by decide
theorem test_ssig1 : ssig1 0x12345678 = 0xA1F78649 ∧ ssig1 0x80000000 = 0x00205000 := by decide
theorem test_bsig0 : bsig0 0x6A09E667 = 0xCE20B47E ∧ bsig0 1 = 0x40080400 := by decide
theorem test_bsig1 : bsig1 0x510E527F = 0x3587272B ∧ bsig1 1 = 0x04200080 := by decide
theorem test_ch : ch 0x510E527F 0x9B05688C 0x1F83D9AB = 0x1F85C98C := by decide
theorem test_ma : ma 0x6A09E667 0xBB67AE85 0x3C6EF372 = 0x3A6FE667 := by decide
theorem test_pack32be : pack32be 0x61 0x62 0x63 0x80 = 0x61626380 := by decide
theorem test_unpack32be : unpack32be 0xBA7816BF = #v[0xBA, 0x78, 0x16, 0xBF] := by decide
theorem test_enc64be : enc64be 448 = [0, 0, 0, 0, 0, 0, 0x01, 0xC0] ∧
    enc64be 0x0102030405060708 = [1, 2, 3, 4, 5, 6, 7, 8] := by decide

/-- Round 0 of "abc" (the worked example of R91). -/
theorem test_round : roundStep romHinit 0x61626380 romK[0] =
    #v[0x5D6AEBCD, 0x6A09E667, 0xBB67AE85, 0x3C6EF372, 0xFA2A4622, 0x510E527F, 0x9B05688C, 0x1F83D9AB] := by decide

/-! ### Commands -/

/-- INIT with an error recorded (spec/95 section 3.6). -/
theorem test_init : onNext (exec .init { failed with bi := 7 }) (fun t =>
    t.h[0] == 0x6A09E667 && t.h[7] == 0x5BE0CD19 && t.bi == 0 && t.status.toByte == 0x00) = true := by decide

/-- PAD of "abc" (the example of R79). -/
theorem test_pad_abc : onNext (exec .pad base) (fun t =>
    t.plen == 64 && [0, 1, 2, 3, 62, 63].map t.pmCell == [0x61, 0x62, 0x63, 0x80, 0x00, 0x18]) = true := by
  decide +kernel

/-- PAD of the empty message under REJECT_EMPTY = 1 (the corner case of R79). -/
theorem test_pad_empty : onNext (exec .pad { base with cfg := cfg200r, len := 0 }) (fun t =>
    t.plen == 64 && t.pmCell 0 == 0x80 && t.pmCell 63 == 0 && t.status.toByte == 0x00) = true := by decide +kernel

/-- The padded lengths of spec/95 section 2 at the three cases of R76. -/
theorem test_padded_lengths : [0, 55, 56, 57, 63, 64, 112, 119, 120].map padLen =
    [64, 64, 128, 128, 128, 128, 128, 128, 192] := by decide

/-- CHUNK of the second block (row 2 of spec/95 section 3.2). -/
theorem test_chunk_delivers : onNext (exec .chunk (chunkAt 128 1)) (fun t =>
    t.blk[0] == 0x40 && t.blk[63] == 0x7F && t.bi == 2 && t.status.toByte == 0x00) = true := by decide +kernel

/-- CHUNK that fails: range, alignment, and BI = 2^64 - 1 with no wrap (spec/95 section 3.2). -/
theorem test_chunk_fails : ([chunkAt 128 2, chunkAt 0 0, chunkAt 65 0, chunkAt 128 0xFFFFFFFFFFFFFFFF]).all (fun s =>
    onNext (exec .chunk s) (fun t =>
      t.status.toByte == 0x02 && t.bi == s.bi && t.blk == s.blk)) = true := by decide +kernel

/-- SCHED of 64 bytes FF (spec/95 section 3.3 b). -/
theorem test_sched : onNext (exec .sched { base with blk := Vector.replicate 64 0xFF }) (fun t =>
    t.w[15] == 0xFFFFFFFF && t.w[16] == 0x203FFFFC && t.w[18] == 0x20099BE4 && t.w[60] == 0xDEC7F8B5 &&
      t.w[63] == 0x4BCEAF09) = true := by decide +kernel

/-- COMPRESS with H and W all zero (row 2 of spec/95 section 3.4). -/
theorem test_compress : onNext (exec .compress base) (fun t =>
    t.h[0] == 0x7CA51614 && t.h[7] == 0xBF0BE7A6 && t.t[3] == 0xC2020AE7) = true := by decide +kernel

/-- COMPRESS with H = HINIT and W all zero (row 1 of spec/95 section 3.4). -/
theorem test_compress_hinit : onNext (exec .compress { base with h := romHinit }) (fun t =>
    t.t[0] == 0x704CB257 && t.h == #v[0xDA5698BE, 0x17B9B469, 0x62335799, 0x779FBECA, 0x8CE5D491, 0xC0D26243,
      0xBAFEF9EA, 0x1837A9D8]) = true := by decide +kernel

/-- DIGEST (row 2 of spec/95 section 3.5). -/
theorem test_digest : onNext (exec .digest { base with h := #v[1, 2, 3, 4, 5, 6, 7, 8] }) (fun t =>
    [0, 2, 3, 7, 31].map (fun i => t.dig.toList.getD i 0) == [0, 0, 1, 2, 8] && t.status.toByte == 0x04) = true := by
  decide +kernel

/-- HASH of "abc" with an error recorded (spec/95 sections 1 and 3.6). -/
theorem test_hash_abc : onNext (exec .hash failed) (fun t =>
    t.dig == #v[0xBA, 0x78, 0x16, 0xBF, 0x8F, 0x01, 0xCF, 0xEA, 0x41, 0x41, 0x40, 0xDE, 0x5D, 0xAE, 0x22, 0x23,
      0xB0, 0x03, 0x61, 0xA3, 0x96, 0x17, 0x7A, 0x9C, 0xB4, 0x10, 0xFF, 0x61, 0xF2, 0x00, 0x15, 0xAD] &&
    t.t[0] == 0x506E3058 && t.w[63] == 0x12B1EDEB && t.bi == 1 && t.plen == 64 && t.status.toByte == 0x04) = true := by
  decide +kernel

/-- HASH of two blocks (program P2 of spec/96), and of the empty message with REJECT_EMPTY = 1 (program P4). -/
theorem test_hash_two_blocks_and_rejected :
    onNext (exec .hash { base with
      msg := Memory.cells 0 ("abcdbcdecdefdefgefghfghighijhijkijkljklmklmnlmnomnopnopq".toList.map
        fun c => BitVec.ofNat 8 c.toNat)
      len := 56 }) (fun t =>
        t.h == #v[0x248D6A61, 0xD20638B8, 0xE5C02693, 0x0C3E6039, 0xA33CE459, 0x64FF2167, 0xF6ECEDD4, 0x19DB06C1] &&
          t.bi == 2 && t.plen == 128) = true ∧
    onNext (exec .hash { base with cfg := cfg200r, len := 0 }) (fun t =>
      t.status.toByte == 0x01 && t.dig == base.dig && t.h == base.h && t.plen == 0) = true := by decide +kernel

/-- Reserved words after Reset (spec/95 section 3.6), and a reserved word that keeps the first error. -/
theorem test_reserved : ([0x00, 0x08, 0x17, 0x3F, 0x40, 0xFF] : List Byte).all (fun c =>
    onNext (step { State.reset with script := [.command c] }) (fun t => t.status.toByte == 0x02)) = true ∧
    onNext (exec .reserved00 { base with status := { err := some .invalidInput, dv := false } })
      (fun t => t.status.toByte == 0x01) = true := by decide

/-- The stage commands are ignored while an error is recorded (spec/95 section 3.6). -/
theorem test_sticky : ([.pad, .chunk, .sched, .compress, .digest] : List Instr).all (fun i =>
    onNext (exec i failed) (fun t => t == failed)) = true := by decide +kernel

/-! ### Host actions -/

/-- A write of the value a cell holds still clears DV (spec/95 section 3.6). -/
theorem test_host_write_clears_dv :
    onNext (step { base with status := { err := none, dv := true }, script := [.write (.msg 0) 0x61] })
      (fun t => t.status.toByte == 0x00 && t.msg == base.msg) = true := by decide

/-- A read returns the value and CMD reads as 0 (R27, R23). -/
theorem test_host_read :
    onNext (step { base with script := [.read (.msg 2)] }) (fun t => t.replies == [0x63]) = true ∧
    onNext (step { base with script := [.read .cmd] }) (fun t => t.replies == [0]) = true := by decide

/-- Reset (R25). -/
theorem test_host_reset : onNext (step { chunkAt 128 1 with script := [.reset] }) (fun t =>
    t.len == 0 && t.plen == 0 && t.bi == 0 && t.msg == [] && t.draws == 1) = true := by decide +kernel

/-- LOADMSG "abc" (R53). -/
theorem test_loadmsg : loadMsg [0x61, 0x62, 0x63] =
    [.write (.msg 0) 0x61, .write (.msg 1) 0x62, .write (.msg 2) 0x63, .write .len 3] := by decide

/-- The word given to the fetch is the next command. -/
theorem test_with_fetch_word : onNext (step (State.reset.withFetchWord 8 0x01)) (fun t =>
    t.h[0] == 0x6A09E667) = true := by decide

/-! ### Witnesses: each statement's hypotheses can be met -/

theorem base_inv : base.Inv :=
  ⟨⟨by decide, by decide⟩, by decide, by decide, by decide, by decide, by decide, by decide⟩

theorem witness_CmdWriteExecutesTheDecodedCommand :
    ∃ s₁ s₂ s₃ : State, s₁.script = [.command 0xFF#8] ∧ s₂.script = [.write .cmd (0xFF#8).toNat] ∧
      s₃.script = [.read .cmd] :=
  ⟨{ base with script := [.command 0xFF#8] }, { base with script := [.write .cmd 0xFF] },
    { base with script := [.read .cmd] }, rfl, rfl, rfl⟩

theorem witness_IdleCoreKeepsAllState : ∃ s : State, s.script = [] := ⟨base, rfl⟩

theorem witness_ResetClearsControlStateOnly : ∃ s : State, s.script = [.reset] ∧ s.len ≠ 0 :=
  ⟨{ base with script := [.reset] }, rfl, by decide⟩

/-- Every writable register at the last element and the largest value, and a refused write of each kind. -/
theorem witness_HostWriteStoresOneElement :
    (∀ p ∈ [(Loc.msg 199, 255), (.len, 200), (.pm 255, 255), (.plen, 256), (.blk 63, 255), (.bi, 2 ^ 64 - 1),
        (.w 63, 2 ^ 32 - 1), (.h 7, 2 ^ 32 - 1)],
      ∃ s : State, s.script = [.write p.1 p.2] ∧ writeAccepted s.cfg p.1 p.2 ∧ p.1 ≠ .cmd) ∧
    (∃ s : State, s.script = [.write .cmd 255] ∧ writeAccepted s.cfg .cmd 255) ∧
    ∀ p ∈ [(Loc.msg 200, 0), (.len, 201), (.blk 0, 256), (.t 0, 0)],
      ∃ s : State, s.script = [.write p.1 p.2] ∧ ¬ writeAccepted s.cfg p.1 p.2 := by
  refine ⟨?_, ⟨{ base with script := [.write .cmd 255] }, rfl, by simp [writeAccepted]⟩, ?_⟩ <;>
    · intro p hp
      refine ⟨{ base with script := [.write p.1 p.2] }, rfl, ?_⟩
      simp only [List.mem_cons, List.not_mem_nil, or_false] at hp
      rcases hp with rfl | rfl | rfl | rfl | rfl | rfl | rfl | rfl <;>
        simp [writeAccepted, base, cfg200, Config.msgMax, Config.pmMax]

/-- Every readable register at the last element, and refused reads. -/
theorem witness_HostReadReturnsTheElement :
    (∀ l ∈ [Loc.msg 199, .len, .pm 255, .plen, .blk 63, .bi, .w 63, .h 7, .t 7, .dig 31, .status, .cmd],
      ∃ s : State, s.script = [.read l, .read l] ∧ readAccepted s.cfg l) ∧
    ∀ l ∈ [Loc.msg 200, .t 8, .dig 32, .hinit 0, .k 0],
      ∃ s : State, s.script = [.read l] ∧ ¬ readAccepted s.cfg l := by
  constructor
  · intro l hl
    refine ⟨{ base with script := [.read l, .read l] }, rfl, ?_⟩
    simp only [List.mem_cons, List.not_mem_nil, or_false] at hl
    rcases hl with rfl | rfl | rfl | rfl | rfl | rfl | rfl | rfl | rfl | rfl | rfl | rfl <;>
      simp [readAccepted, base, cfg200, Config.msgMax, Config.pmMax]
  · intro l hl
    refine ⟨{ base with script := [.read l] }, rfl, ?_⟩
    simp only [List.mem_cons, List.not_mem_nil, or_false] at hl
    rcases hl with rfl | rfl | rfl | rfl | rfl <;>
      simp [readAccepted, base, cfg200, Config.msgMax]

/-- The smallest refused index and value of each clause. -/
theorem witness_RefusedHostActionsHaveNoStep :
    ∃ s₁ s₂ s₃ s₄ s₅ s₆ : State, s₁.script = [.write (.dig 0) 0] ∧ s₂.script = [.read (.k 0)] ∧
      (s₃.script = [.write (.msg 200) 0] ∧ s₃.cfg.msgMax ≤ 200) ∧ s₄.script = [.read (.t 8)] ∧
      (s₅.script = [.write (.msg 199) (2 ^ 8)] ∧ 199 < s₅.cfg.msgMax) ∧
      (s₆.script = [.write .len 201] ∧ s₆.cfg.msgMax < 201) :=
  ⟨{ base with script := [.write (.dig 0) 0] }, { base with script := [.read (.k 0)] },
    { base with script := [.write (.msg 200) 0] }, { base with script := [.read (.t 8)] },
    { base with script := [.write (.msg 199) (2 ^ 8)] }, { base with script := [.write .len 201] },
    rfl, rfl, ⟨rfl, by decide⟩, rfl, ⟨rfl, by decide⟩, ⟨rfl, by decide⟩⟩

/-- The two ends of the amounts and of the bit positions (also for the sigma functions, Ch and Ma). -/
theorem witness_RotateAndShiftMoveEachBit :
    ∃ n n' i i' : Nat, 1 ≤ n ∧ n ≤ 31 ∧ i < 32 ∧ 1 ≤ n' ∧ n' ≤ 31 ∧ i' < 32 ∧ i + n ≤ 31 ∧ 31 < i' + n' :=
  ⟨1, 31, 0, 31, by decide⟩

theorem witness_LengthFieldIsBigEndian : ∃ v v' : Nat, v < 2 ^ 64 ∧ v' < 2 ^ 64 ∧ v = 0 ∧ v' = 2 ^ 64 - 1 :=
  ⟨0, 2 ^ 64 - 1, by decide⟩

/-- Lengths on both sides of each case of R76 and R78. -/
theorem witness_PaddedLengthLaws : ∃ m m' : List Byte, m.length % 64 = 55 ∧ m'.length % 64 = 56 :=
  ⟨List.replicate 55 0, List.replicate 56 0, by decide, by decide⟩

theorem witness_PaddedMessageLayout :
    ∃ m : List Byte, m.length ≤ 2 ^ 61 - 1 ∧ 0 < m.length ∧ m.length + 1 < padLen m.length - 8 ∧ (63 : Nat) ≤ 63 :=
  ⟨[0x61], by decide⟩

/-- LEN = MSG_MAX and LEN = 0, an error recorded, and a PAD that runs. -/
theorem witness_PadWritesThePaddedMessage :
    (∃ s : State, s.status.err = none ∧ s.len.toNat ≤ s.cfg.msgMax ∧ s.len.toNat = s.cfg.msgMax) ∧
    (∃ s : State, s.status.err = none ∧ s.len.toNat ≤ s.cfg.msgMax ∧ s.len = 0) ∧
    (∃ s : State, s.status.err ≠ none) ∧ ∃ s t : State, exec .pad s = .next t := by
  refine ⟨⟨{ base with len := 200 }, by decide⟩, ⟨{ base with len := 0 }, by decide⟩, ⟨failed, by decide⟩, base, ?_⟩
  obtain ⟨t, h, -⟩ := next_of_onNext test_pad_abc
  exact ⟨t, h⟩

theorem witness_ChunkingPartitionsTheBytes : ∃ p : List Byte, p.length % 64 = 0 ∧ 1 < p.length / 64 :=
  ⟨List.replicate 128 0, by simp⟩

/-- One state for each clause, at the boundaries of the two checks. -/
theorem witness_ChunkDeliversOrReports :
    (∃ s : State, s.status.err ≠ none) ∧
    (∃ s : State, s.status.err = none ∧ s.plen.toNat % 64 ≠ 0 ∧ s.plen = 65) ∧
    (∃ s : State, s.status.err = none ∧ s.plen.toNat % 64 = 0 ∧ 64 * (s.bi.toNat + 1) > s.plen.toNat ∧
      s.bi.toNat = 2 ^ 64 - 1) ∧
    (∃ s : State, s.status.err = none ∧ s.plen.toNat ≤ s.cfg.pmMax ∧ s.plen.toNat % 64 = 0 ∧
      64 * (s.bi.toNat + 1) ≤ s.plen.toNat ∧ s.plen.toNat = s.cfg.pmMax ∧ 64 * (s.bi.toNat + 1) = s.plen.toNat) ∧
    ∃ s : State, s.status.err = none ∧ s.len.toNat ≤ s.cfg.msgMax ∧ s.bi = 0 :=
  ⟨⟨failed, by decide⟩, ⟨{ base with plen := 65 }, by decide⟩,
    ⟨{ base with plen := 128, bi := 0xFFFFFFFFFFFFFFFF }, by decide⟩, ⟨{ base with plen := 256, bi := 3 }, by decide⟩,
    ⟨base, by decide⟩⟩

theorem witness_ScheduleWordsOfABlock : ∃ i i' : Nat, 16 ≤ i ∧ i < 64 ∧ 16 ≤ i' ∧ i' < 64 ∧ i = 16 ∧ i' = 63 :=
  ⟨16, 63, by decide⟩

/-- For SCHED, COMPRESS and DIGEST: a state with no error, one with an error, and a run of each. -/
theorem witness_StageCommands :
    base.status.err = none ∧ failed.status.err ≠ none ∧ (∃ t, exec .sched base = .next t) ∧
      (∃ t, exec .compress base = .next t) ∧ ∃ t, exec .digest base = .next t :=
  ⟨rfl, by decide, ⟨_, rfl⟩, ⟨_, rfl⟩, _, rfl⟩

theorem witness_InitBeginsACall : (∃ s t : State, exec .init s = .next t) ∧ ∃ s : State, s.status.err = none :=
  ⟨⟨failed, _, rfl⟩, base, rfl⟩

theorem witness_ReservedWordsRaiseOrAreIgnored :
    (∃ c c' : Byte, c.toNat = 0 ∧ 8 ≤ c'.toNat ∧ c' = 0x08) ∧
    ∃ (i : Instr) (s s' : State), i.isReserved = true ∧ s.status.err = none ∧ s'.status.err ≠ none :=
  ⟨⟨0x00, 0x08, by decide⟩, .reserved80 0, base, failed, by decide⟩

/-- A message that is rejected, the empty one that is not, and the longest one. -/
theorem witness_HashComputesSha256 :
    (∃ s : State, s.rejects) ∧
    (∃ s : State, s.len.toNat ≤ s.cfg.msgMax ∧ ¬ s.rejects ∧ s.len = 0) ∧
    ∃ s : State, s.len.toNat ≤ s.cfg.msgMax ∧ ¬ s.rejects ∧ s.len.toNat = s.cfg.msgMax := by
  refine ⟨⟨{ base with cfg := cfg200r, len := 0 }, ?_⟩, ⟨{ base with len := 0 }, ?_⟩, { base with len := 200 }, ?_⟩ <;>
    simp [State.rejects, base, cfg200, cfg200r, Config.msgMax]

theorem witness_HashEqualsTheStageSequence :
    (∃ s : State, s.len.toNat ≤ s.cfg.msgMax ∧ s.cfg.rejectEmpty = false ∧ s.len = 0) ∧
    ∃ s : State, s.len.toNat ≤ s.cfg.msgMax ∧ s.len ≠ 0 ∧ s.cfg.rejectEmpty = true :=
  ⟨⟨{ base with len := 0 }, by decide⟩, { base with cfg := cfg200r }, by decide⟩

/-- Two states with the same message and every other register different, on both of which HASH completes. -/
theorem witness_HashDependsOnlyOnTheMessage :
    ∃ s s' t t' : State, s.cfg = s'.cfg ∧ s.len = s'.len ∧ ¬ s.rejects ∧
      (∀ a, a < s.len.toNat → s.msgCell a = s'.msgCell a) ∧ s.h ≠ s'.h ∧ s.status ≠ s'.status ∧
      exec .hash s = .next t ∧ exec .hash s' = .next t' := by
  obtain ⟨t', h', -⟩ := next_of_onNext test_hash_abc
  have hx : onNext (exec .hash { base with h := romHinit }) (fun _ => true) = true := by decide +kernel
  obtain ⟨t, h, -⟩ := next_of_onNext hx
  refine ⟨{ base with h := romHinit }, failed, t, t', rfl, rfl, ?_, fun _ _ => rfl, ?_, ?_, h, h'⟩
  · simp [State.rejects, base]
  · decide
  · decide

/-- An error of each kind after a command. -/
theorem witness_ErrorsArePrecise :
    (∃ (i : Instr) (s t : State), exec i s = .next t ∧ t.status.err = some .internalInvariantViolation ∧
      s.status.err = none) ∧
    ∃ (i : Instr) (s t : State), exec i s = .next t ∧ t.status.err = some .invalidInput ∧ s.status.err = none :=
  ⟨⟨.chunk, { base with plen := 65 }, _, rfl, rfl, rfl⟩,
    ⟨.hash, { base with cfg := cfg200r, len := 0 }, _, rfl, rfl, rfl⟩⟩

theorem witness_ErrorIsSticky :
    (∃ (s : State) (is : List Instr), s.status.err ≠ none ∧ s.status.dv = false ∧ is ≠ [] ∧
      ∀ i ∈ is, i ≠ .init ∧ i ≠ .hash) ∧
    (∃ s : State, s.status.err ≠ none ∧ s.script = [.reset]) ∧
    (∃ s : State, s.status.err ≠ none ∧ s.script = [.write .bi 0] ∧ writeAccepted s.cfg .bi 0) ∧
    ∃ s : State, s.status.err ≠ none ∧ s.script = [.read .status] ∧ readAccepted s.cfg .status :=
  ⟨⟨failed, [.pad, .digest, .reserved00], by decide⟩, ⟨{ failed with script := [.reset] }, by decide⟩,
    ⟨{ failed with script := [.write .bi 0] }, by decide, rfl, by simp [writeAccepted]⟩,
    ⟨{ failed with script := [.read .status] }, by decide, rfl, trivial⟩⟩

theorem witness_InvalidInputOnlyFromRejectedHash :
    (∃ s t : State, exec .hash s = .next t ∧ s.len = 0 ∧ s.cfg.rejectEmpty = true) ∧
    ∃ (i : Instr) (s t : State), i ≠ .hash ∧ exec i s = .next t ∧ t.status.err = some .invalidInput :=
  ⟨⟨{ base with cfg := cfg200r, len := 0 }, _, rfl, by decide⟩,
    ⟨.digest, { base with status := { err := some .invalidInput, dv := false } }, _, by decide, rfl, rfl⟩⟩

/-- One state for each of the three causes, a HASH that completes and a PAD that completes. -/
theorem witness_InvariantViolationHasThreeCauses :
    (∃ s t : State, s.status.err = none ∧ exec .chunk s = .next t ∧ s.plen.toNat % 64 ≠ 0) ∧
    (∃ s t : State, s.status.err = none ∧ exec .chunk s = .next t ∧ 64 * (s.bi.toNat + 1) > s.plen.toNat) ∧
    (∃ (i : Instr) (s t : State), s.status.err = none ∧ exec i s = .next t ∧ i.isReserved = true) ∧
    (∃ s t : State, exec .hash s = .next t) ∧ ∃ s t : State, s.status.err = none ∧ exec .pad s = .next t := by
  obtain ⟨t, h, -⟩ := next_of_onNext test_hash_abc
  obtain ⟨u, h', -⟩ := next_of_onNext test_pad_abc
  exact ⟨⟨{ base with plen := 65 }, _, rfl, rfl, by decide⟩, ⟨base, _, rfl, rfl, by decide⟩,
    ⟨.reserved00, base, _, rfl, rfl, rfl⟩, ⟨failed, t, h⟩, base, u, rfl, h'⟩

theorem witness_EveryCommandCompletes :
    ∃ (i : Instr) (s : State), s.Legal ∧ s.status.err = none ∧ ¬ (i = .hash ∧ s.rejects) ∧ i.isReserved = false ∧
      ¬ (i = .chunk ∧ (s.plen.toNat % 64 ≠ 0 ∨ 64 * (s.bi.toNat + 1) > s.plen.toNat)) ∧ i = .chunk :=
  ⟨.chunk, { base with plen := 256, bi := 3 }, ⟨by decide, by decide⟩, rfl, by simp, rfl,
    by rintro ⟨-, h⟩; revert h; decide, rfl⟩

theorem witness_OnlyIllegalLengthsFault :
    (∃ s : State, s.status.err = none ∧ s.cfg.msgMax < s.len.toNat ∧ s.len = 201 ∧
      exec .pad s = .fault .beyondBuffer) ∧
    ∃ s : State, s.status.err = none ∧ s.plen.toNat % 64 = 0 ∧ 64 * (s.bi.toNat + 1) ≤ s.plen.toNat ∧
      s.cfg.pmMax < 64 * (s.bi.toNat + 1) :=
  ⟨⟨{ base with len := 201 }, rfl, by decide, rfl, rfl⟩, { base with plen := 320, bi := 4 }, by decide⟩

/-- For the rules about every command that answers a next state: each command does so on `base` or near it. -/
theorem witness_EveryCommandAnswers :
    (∃ t, exec .init base = .next t) ∧ (∃ t, exec .pad base = .next t) ∧ (∃ t, exec .chunk base = .next t) ∧
      (∃ t, exec .sched base = .next t) ∧ (∃ t, exec .compress base = .next t) ∧
      (∃ t, exec .digest base = .next t) ∧ (∃ t, exec .hash failed = .next t) ∧
      ∃ t, exec (.reserved08 7) base = .next t := by
  obtain ⟨t, h, -⟩ := next_of_onNext test_pad_abc
  obtain ⟨u, h', -⟩ := next_of_onNext test_hash_abc
  exact ⟨⟨_, rfl⟩, ⟨t, h⟩, ⟨_, rfl⟩, ⟨_, rfl⟩, ⟨_, rfl⟩, ⟨_, rfl⟩, ⟨u, h'⟩, _, rfl⟩

/-- A state of the invariant that steps, by a command that changes most of it. -/
theorem witness_EveryStepKeepsTheInvariant : ∃ s t : State, s.Inv ∧ step s = .next t ∧ t.cfg = s.cfg := by
  refine ⟨{ base with script := [.command 0x06#8] }, _, ?_, rfl, rfl⟩
  exact ⟨⟨by decide, by decide⟩, by decide, by decide, by decide, by decide, by decide, by decide⟩

end Sys2Proof.Tests
end

section
/-! SUPPORT. What every command keeps, and that no step changes the parameters. -/

namespace Sys2Proof.Machine

/-- `t` has what no command modifies as `s` has it: the parameters, the Message (R39), and the host's side. -/
structure KeepsInputs (s t : State) : Prop where
  cfg : t.cfg = s.cfg
  msg : t.msg = s.msg
  len : t.len = s.len
  draws : t.draws = s.draws
  script : t.script = s.script
  replies : t.replies = s.replies

theorem KeepsInputs.trans {s t u : State} (h : KeepsInputs s t) (h' : KeepsInputs t u) : KeepsInputs s u :=
  ⟨h'.cfg.trans h.cfg, h'.msg.trans h.msg, h'.len.trans h.len, h'.draws.trans h.draws,
    h'.script.trans h.script, h'.replies.trans h.replies⟩

theorem KeepsInputs.msgCell {s t : State} (h : KeepsInputs s t) (a : Nat) : t.msgCell a = s.msgCell a := by
  rw [State.msgCell, State.msgCell, h.msg, h.draws]

theorem padStage_keepsInputs {s t : State} (h : padStage s = .next t) : KeepsInputs s t := by
  obtain ⟨-, -, rfl⟩ := padStage_next h
  exact ⟨rfl, rfl, rfl, rfl, rfl, rfl⟩

theorem chunkStage_keepsInputs {s t : State} (h : chunkStage s = .next t) : KeepsInputs s t := by
  rcases chunkStage_next h with ⟨-, rfl⟩ | ⟨-, -, hd⟩
  · exact ⟨rfl, rfl, rfl, rfl, rfl, rfl⟩
  · obtain ⟨-, rfl⟩ := deliverBlock_next hd
    exact ⟨rfl, rfl, rfl, rfl, rfl, rfl⟩

theorem hashBlocks_keepsInputs {n : Nat} {s t : State} (h : hashBlocks n s = .next t) : KeepsInputs s t := by
  obtain ⟨hcfg, hmsg, hlen, -, -, -, -, hdraws, hscript, hreplies⟩ := hashBlocks_frame h
  exact ⟨hcfg, hmsg, hlen, hdraws, hscript, hreplies⟩

theorem execHash_keepsInputs {s t : State} (h : execHash s = .next t) : KeepsInputs s t := by
  rcases execHash_next h with ⟨-, rfl⟩ | ⟨-, u, hu, hut⟩
  · exact ⟨rfl, rfl, rfl, rfl, rfl, rfl⟩
  · have hinit : KeepsInputs s (initStage s) := ⟨rfl, rfl, rfl, rfl, rfl, rfl⟩
    have hpad : KeepsInputs s u := hinit.trans (padStage_keepsInputs hu)
    rcases hut with ⟨-, rfl⟩ | ⟨-, v, hv, rfl⟩
    · exact hpad.trans ⟨rfl, rfl, rfl, rfl, rfl, rfl⟩
    · exact (hpad.trans (hashBlocks_keepsInputs hv)).trans ⟨rfl, rfl, rfl, rfl, rfl, rfl⟩

theorem exec_keepsInputs {i : Instr} {s t : State} (h : exec i s = .next t) : KeepsInputs s t := by
  rcases exec_next h with ⟨-, -, -, rfl⟩ | ⟨-, rfl⟩ | ⟨-, -, hpad⟩ | ⟨-, -, hchunk⟩ | ⟨-, -, rfl⟩ | ⟨-, -, rfl⟩ |
    ⟨-, -, rfl⟩ | ⟨-, hhash⟩ | ⟨-, -, rfl⟩
  · exact ⟨rfl, rfl, rfl, rfl, rfl, rfl⟩
  · exact ⟨rfl, rfl, rfl, rfl, rfl, rfl⟩
  · exact padStage_keepsInputs hpad
  · exact chunkStage_keepsInputs hchunk
  · exact ⟨rfl, rfl, rfl, rfl, rfl, rfl⟩
  · exact ⟨rfl, rfl, rfl, rfl, rfl, rfl⟩
  · exact ⟨rfl, rfl, rfl, rfl, rfl, rfl⟩
  · exact execHash_keepsInputs hhash
  · exact ⟨rfl, rfl, rfl, rfl, rfl, rfl⟩

theorem step_cfg {s t : State} (h : step s = .next t) : t.cfg = s.cfg := by
  rcases step_next h with ⟨-, rfl⟩ | ⟨a, rest, -, -, ⟨-, rfl⟩ | ⟨l, v, -, -, rfl⟩ | ⟨l, -, rfl⟩ | ⟨c, -, hc⟩⟩
  · rfl
  · rfl
  · exact (storeElement_frame l v { s with script := rest }).1
  · rfl
  · exact (exec_keepsInputs hc).cfg

/-- Settles O41: a host access keeps the parameters by its frame, a command by `exec_keepsInputs`. -/
theorem stepKeepsTheParameters : Obligations.StepKeepsTheParameters := fun _ _ h => step_cfg h

end Sys2Proof.Machine
end

section
/-! SUPPORT. The padded message: its length, its fit into PM, and its bytes and Blocks in PM after PAD. -/

namespace Sys2Proof.Machine

theorem padMessage_length (m : List Byte) : (padMessage m).length = padLen m.length := by
  have hz : m.length + 1 + zeroCount (m.length % 64) + 8 = padLen m.length := by
    unfold zeroCount padLen
    split_ifs <;> omega
  simp only [padMessage, List.length_append, List.length_singleton, List.length_replicate, enc64be_length]
  exact hz

theorem padLen_mod_64 (l : Nat) : padLen l % 64 = 0 := by simp [padLen]

theorem padLen_mono {l l' : Nat} (h : l ≤ l') : padLen l ≤ padLen l' := by
  unfold padLen
  omega

theorem pmMax_lt (c : Config) : c.pmMax < 2 ^ 62 := by
  have h := c.msgCapacity.isLt
  unfold Config.pmMax Config.msgMax
  omega

theorem padLen_le_pmMax {c : Config} {l : Nat} (h : l ≤ c.msgMax) : padLen l ≤ c.pmMax := padLen_mono h

theorem padLen_lt {c : Config} {l : Nat} (h : l ≤ c.msgMax) : padLen l < 2 ^ 62 :=
  (padLen_le_pmMax h).trans_lt (pmMax_lt c)

theorem padded_plen_toNat {s : State} (h : s.len.toNat ≤ s.cfg.msgMax) :
    (padded s).plen.toNat = padLen s.len.toNat := by
  have hlt := padLen_lt h
  rw [padded_plen, padMessage_length, message_length, BitVec.toNat_ofNat]
  exact Nat.mod_eq_of_lt (by omega)

theorem padStage_of_le {s : State} (h : s.len.toNat ≤ s.cfg.msgMax) : padStage s = .next (padded s) := by
  have hpm : (padMessage s.message).length ≤ s.cfg.pmMax := by
    rw [padMessage_length, message_length]
    exact padLen_le_pmMax h
  rw [padStage, withinBuffer_of_le h, withinBuffer_of_le hpm]

theorem padStage_of_lt {s : State} (h : s.cfg.msgMax < s.len.toNat) : padStage s = .fault .beyondBuffer :=
  withinBuffer_of_lt h _

theorem padded_pmCell_of_lt {s : State} {a : Nat} (h : a < padLen s.len.toNat) :
    some ((padded s).pmCell a) = (padMessage s.message)[a]? := by
  have ha : a < (padMessage s.message).length := by rwa [padMessage_length, message_length]
  simp [State.pmCell, Memory.lookup_write, ha]

theorem padded_pmCell_of_le {s : State} {a : Nat} (h : padLen s.len.toNat ≤ a) :
    (padded s).pmCell a = s.pmCell a := by
  have ha : ¬ a < (padMessage s.message).length := by
    rw [padMessage_length, message_length]
    omega
  simp [State.pmCell, Memory.lookup_write, ha]

theorem pmCell_congr {s t : State} (hpm : t.pm = s.pm) (hdraws : t.draws = s.draws) (a : Nat) :
    t.pmCell a = s.pmCell a := by
  rw [State.pmCell, State.pmCell, hpm, hdraws]

theorem pmBlock_congr {s t : State} (hpm : t.pm = s.pm) (hdraws : t.draws = s.draws) (j : Nat) :
    t.pmBlock j = s.pmBlock j := by
  unfold State.pmBlock
  simp only [pmCell_congr hpm hdraws]

/-- What CHUNK reads from PM after PAD are the Blocks of the padded message (R80, R82). -/
theorem chunkBytes_padMessage (s : State) :
    chunkBytes (padMessage s.message) = (List.range (padLen s.len.toNat / 64)).map (padded s).pmBlock := by
  rw [chunkBytes, padMessage_length, message_length]
  refine List.map_congr_left fun j hj => ?_
  rw [List.mem_range] at hj
  unfold State.pmBlock
  congr 1
  funext k
  have hk : 64 * j + k < padLen s.len.toNat := by omega
  rw [List.getD_eq_getElem?_getD, ← padded_pmCell_of_lt hk, Option.getD_some]

end Sys2Proof.Machine
end

section
/-! SUPPORT. The loop of HASH as the iteration of a function on states, and the state HASH leaves. -/

namespace Sys2Proof.Machine

/-- What one iteration of the loop of HASH writes (R105): a Block delivered, scheduled and compressed. -/
def blockHashed (s : State) : State := compressStage (schedStage (delivered s))

theorem hashBlock_of_le {s : State} (h : 64 * s.bi.toNat + 64 ≤ s.cfg.pmMax) :
    hashBlock s = .next (blockHashed s) := by
  rw [hashBlock, deliverBlock, withinBuffer_of_le h, andThen_next, blockHashed]

@[simp] theorem blockHashed_cfg (s : State) : (blockHashed s).cfg = s.cfg := rfl

@[simp] theorem blockHashed_pmBlock (s : State) (j : Nat) : (blockHashed s).pmBlock j = s.pmBlock j :=
  pmBlock_congr (s := s) (t := blockHashed s) rfl rfl j

theorem blockHashed_bi_toNat {s : State} (h : s.bi.toNat + 1 < 2 ^ 64) :
    (blockHashed s).bi.toNat = s.bi.toNat + 1 := by
  have hbi : (blockHashed s).bi = s.bi + 1 := rfl
  rw [hbi]
  bv_omega

/-- Each Block of the loop lies within PM, so the loop completes. -/
theorem hashBlocks_eq_iterate {n : Nat} {s : State} (h : 64 * (s.bi.toNat + n) ≤ s.cfg.pmMax) :
    hashBlocks n s = .next (blockHashed^[n] s) := by
  induction n generalizing s with
  | zero => rfl
  | succ n ih =>
    have hlt := pmMax_lt s.cfg
    have hbi : (blockHashed s).bi.toNat = s.bi.toNat + 1 := blockHashed_bi_toNat (by omega)
    rw [hashBlocks, hashBlock_of_le (by omega), andThen_next, Function.iterate_succ_apply]
    exact ih (by rw [hbi, blockHashed_cfg]; omega)

theorem iterate_blockHashed_bi_toNat {n : Nat} {s : State} (h : s.bi.toNat + n < 2 ^ 64) :
    (blockHashed^[n] s).bi.toNat = s.bi.toNat + n := by
  induction n with
  | zero => rfl
  | succ n ih =>
    have ih := ih (by omega)
    rw [Function.iterate_succ_apply', blockHashed_bi_toNat (by omega), ih, Nat.add_assoc]

theorem iterate_blockHashed_pmBlock (n : Nat) (s : State) (j : Nat) :
    (blockHashed^[n] s).pmBlock j = s.pmBlock j := by
  induction n with
  | zero => rfl
  | succ n ih =>
    rw [Function.iterate_succ_apply', blockHashed_pmBlock, ih]

/-- The Block in BLK after iteration `n` of the loop. -/
theorem iterate_succ_blockHashed_blk {n : Nat} {s : State} (h : s.bi.toNat + n < 2 ^ 64) :
    (blockHashed^[n + 1] s).blk = s.pmBlock (s.bi.toNat + n) := by
  rw [Function.iterate_succ_apply', ← iterate_blockHashed_pmBlock n, ← iterate_blockHashed_bi_toNat h]
  rfl

theorem iterate_succ_blockHashed_w (n : Nat) (s : State) :
    (blockHashed^[n + 1] s).w = schedule (blockHashed^[n + 1] s).blk := by
  rw [Function.iterate_succ_apply']
  rfl

theorem iterate_succ_blockHashed_t (n : Nat) (s : State) :
    (blockHashed^[n + 1] s).t = workingWords (blockHashed^[n] s).h (blockHashed^[n + 1] s).w := by
  rw [Function.iterate_succ_apply']
  rfl

theorem iterate_succ_blockHashed_h (n : Nat) (s : State) :
    (blockHashed^[n + 1] s).h = accumulate (blockHashed^[n] s).h (blockHashed^[n + 1] s).t := by
  rw [Function.iterate_succ_apply']
  rfl

/-- The loop folds the compression over the Blocks it reads. -/
theorem iterate_blockHashed_h {n : Nat} {s : State} (h : s.bi.toNat + n < 2 ^ 64) :
    (blockHashed^[n] s).h = ((List.range n).map fun j => s.pmBlock (s.bi.toNat + j)).foldl
      (fun h b => compressState h (schedule b)) s.h := by
  induction n with
  | zero => rfl
  | succ n ih =>
    rw [iterate_succ_blockHashed_h, iterate_succ_blockHashed_t, iterate_succ_blockHashed_w,
      iterate_succ_blockHashed_blk (by omega), ih (by omega), List.range_succ, List.map_append, List.foldl_append]
    rfl

/-- What HASH has written when its loop ends (R105). -/
def hashLoopEnd (s : State) : State := blockHashed^[padLen s.len.toNat / 64] (padded (initStage s))

theorem padded_initStage_bi_toNat (s : State) : (padded (initStage s)).bi.toNat = 0 := rfl

/-- The loop HASH runs after PAD completes. -/
theorem hashBlocks_padded {s : State} (h : s.len.toNat ≤ s.cfg.msgMax) :
    hashBlocks (padLen s.len.toNat / 64) (padded (initStage s)) = .next (hashLoopEnd s) := by
  have hle := padLen_le_pmMax h
  refine hashBlocks_eq_iterate ?_
  rw [padded_initStage_bi_toNat, padded_cfg, initStage_cfg]
  omega

/-- HASH on a legal message it does not reject, as one function of the state. -/
theorem execHash_eq {s : State} (h : s.len.toNat ≤ s.cfg.msgMax) (hr : ¬ s.rejects) :
    execHash s = .next (digestStage (hashLoopEnd s)) := by
  have hplen : (padded (initStage s)).plen.toNat = padLen s.len.toNat := padded_plen_toNat (s := initStage s) h
  have hpad : padStage (initStage s) = .next (padded (initStage s)) := padStage_of_le h
  rw [execHash_of_not_rejects hr, hpad, andThen_next, hplen, if_neg (by simp [padLen_mod_64]),
    hashBlocks_padded h, andThen_next]

/-- The Blocks the loop of HASH reads: INIT keeps the Message. -/
theorem chunkBytes_padMessage_initStage (s : State) :
    chunkBytes (padMessage s.message) =
      (List.range (padLen s.len.toNat / 64)).map (padded (initStage s)).pmBlock :=
  chunkBytes_padMessage (initStage s)

theorem hashLoopEnd_bi_toNat {s : State} (h : s.len.toNat ≤ s.cfg.msgMax) :
    (hashLoopEnd s).bi.toNat = padLen s.len.toNat / 64 := by
  have hlt := padLen_lt h
  have hbi := padded_initStage_bi_toNat s
  rw [hashLoopEnd, iterate_blockHashed_bi_toNat (by omega), hbi, Nat.zero_add]

/-- What HASH leaves outside the registers its loop writes: those of PAD and INIT. -/
theorem hashLoopEnd_frame {s : State} (h : s.len.toNat ≤ s.cfg.msgMax) :
    (hashLoopEnd s).pm = (padded (initStage s)).pm ∧ (hashLoopEnd s).plen = (padded (initStage s)).plen ∧
      (hashLoopEnd s).status.err = none ∧ (hashLoopEnd s).draws = s.draws := by
  obtain ⟨-, -, -, hpm, hplen, -, herr, hdraws, -, -⟩ := hashBlocks_frame (hashBlocks_padded h)
  exact ⟨hpm, hplen, herr, hdraws⟩

theorem hashLoopEnd_pmCell_of_lt {s : State} (h : s.len.toNat ≤ s.cfg.msgMax) {a : Nat}
    (ha : a < padLen s.len.toNat) : some ((hashLoopEnd s).pmCell a) = (padMessage s.message)[a]? := by
  obtain ⟨hpm, -, -, hdraws⟩ := hashLoopEnd_frame h
  rw [pmCell_congr hpm hdraws]
  exact padded_pmCell_of_lt (s := initStage s) ha

theorem hashLoopEnd_pmCell_of_le {s : State} (h : s.len.toNat ≤ s.cfg.msgMax) {a : Nat}
    (ha : padLen s.len.toNat ≤ a) : (hashLoopEnd s).pmCell a = s.pmCell a := by
  obtain ⟨hpm, -, -, hdraws⟩ := hashLoopEnd_frame h
  rw [pmCell_congr hpm hdraws]
  exact padded_pmCell_of_le (s := initStage s) ha

/-- The registers the last iteration of the loop of HASH wrote: the last Block, its schedule, and one compression from
the HashState `h` that the Blocks before it give. -/
theorem hashLoopEnd_last {s : State} (hlen : s.len.toNat ≤ s.cfg.msgMax) :
    (chunkBytes (padMessage s.message)).getLast? = some (hashLoopEnd s).blk ∧
      (hashLoopEnd s).w = schedule (hashLoopEnd s).blk ∧
      ∃ h, h = ((chunkBytes (padMessage s.message)).dropLast).foldl
          (fun h b => compressState h (schedule b)) romHinit ∧
        (hashLoopEnd s).t = workingWords h (hashLoopEnd s).w ∧
        (hashLoopEnd s).h = accumulate h (hashLoopEnd s).t := by
  obtain ⟨m, hm⟩ : ∃ m, padLen s.len.toNat / 64 = m + 1 := ⟨(s.len.toNat + 8) / 64, by simp [padLen]⟩
  have hlt := padLen_lt hlen
  have hbi := padded_initStage_bi_toNat s
  have hin : (padded (initStage s)).bi.toNat + m < 2 ^ 64 := by omega
  have hblocks : chunkBytes (padMessage s.message) =
      (List.range m).map (padded (initStage s)).pmBlock ++ [(padded (initStage s)).pmBlock m] := by
    rw [chunkBytes_padMessage_initStage, hm, List.range_succ, List.map_append, List.map_singleton]
  have hblk := iterate_succ_blockHashed_blk hin
  have hh := iterate_blockHashed_h hin
  simp only [hbi, Nat.zero_add] at hblk hh
  rw [hashLoopEnd, hm, hblocks, List.getLast?_concat, List.dropLast_concat]
  exact ⟨congrArg some hblk.symm, iterate_succ_blockHashed_w m _, _, hh, iterate_succ_blockHashed_t m _,
    iterate_succ_blockHashed_h m _⟩

/-- DIGEST at the end of HASH serializes the SHA-256 of the Message (R1). -/
theorem serialize_hashLoopEnd_h {s : State} (h : s.len.toNat ≤ s.cfg.msgMax) :
    serialize (hashLoopEnd s).h = sha256 s.message := by
  have hlt := padLen_lt h
  have hbi := padded_initStage_bi_toNat s
  have hh := iterate_blockHashed_h (n := padLen s.len.toNat / 64) (s := padded (initStage s)) (by omega)
  simp only [hbi, Nat.zero_add] at hh
  rw [sha256, chunkBytes_padMessage_initStage, hashLoopEnd, hh, padded_h, initStage_h]

/-- Settles O28: HASH is INIT, PAD, the loop `hashLoopEnd` and DIGEST, and the loop folds the compression over the
Blocks of the padded message. -/
theorem hashComputesSha256 : Obligations.HashComputesSha256 := by
  refine ⟨rfl, fun s hr => execHash_of_rejects hr, fun s hlen hr => ?_⟩
  have hexec : exec .hash s = .next (digestStage (hashLoopEnd s)) := execHash_eq hlen hr
  have hkeep := exec_keepsInputs hexec
  obtain ⟨-, hplen, herr, -⟩ := hashLoopEnd_frame hlen
  obtain ⟨hblk, hw, hlast⟩ := hashLoopEnd_last hlen
  refine ⟨_, hexec, serialize_hashLoopEnd_h hlen, rfl, ?_, ?_, hashLoopEnd_bi_toNat hlen,
    fun _ => hashLoopEnd_pmCell_of_lt hlen, fun _ => hashLoopEnd_pmCell_of_le hlen, hblk, hw, hlast,
    hkeep.msgCell, hkeep.msg, hkeep.len, hkeep.cfg, hkeep.draws, hkeep.script, hkeep.replies⟩
  · simp only [digestStage_status, herr]
  · rw [digestStage_plen, hplen]
    exact padded_plen_toNat (s := initStage s) hlen

end Sys2Proof.Machine
end

section
/-! SUPPORT. When a command completes, faults or is refused: refusals come from host actions only, and with legal
lengths every access of a command lies within its buffer. -/

namespace Sys2Proof.Machine

/-! ### No command is refused -/

theorem withinBuffer_ne_refused {r : Result} {q : Refusal} (h : r ≠ .refused q) (cap last : Nat) :
    withinBuffer cap last r ≠ .refused q := by
  rw [withinBuffer]
  split
  · exact h
  · nofun

theorem andThen_ne_refused {r : Result} {k : State → Result} {q : Refusal} (hr : r ≠ .refused q)
    (hk : ∀ s, k s ≠ .refused q) : andThen r k ≠ .refused q := by
  cases r with
  | next s => exact hk s
  | fault f => nofun
  | refused q' => exact hr

theorem unlessError_ne_refused {run : State → Result} {q : Refusal} (h : ∀ s, run s ≠ .refused q) (s : State) :
    unlessError s run ≠ .refused q := by
  rw [unlessError]
  split
  · nofun
  · exact h s

theorem next_ne_refused (s : State) (q : Refusal) : (.next s : Result) ≠ .refused q := nofun

theorem padStage_ne_refused (q : Refusal) (s : State) : padStage s ≠ .refused q :=
  withinBuffer_ne_refused (withinBuffer_ne_refused (next_ne_refused _ q) _ _) _ _

theorem deliverBlock_ne_refused (q : Refusal) (s : State) : deliverBlock s ≠ .refused q :=
  withinBuffer_ne_refused (next_ne_refused _ q) _ _

theorem chunkStage_ne_refused (q : Refusal) (s : State) : chunkStage s ≠ .refused q := by
  rw [chunkStage]
  split_ifs
  · nofun
  · nofun
  · exact deliverBlock_ne_refused q s

theorem hashBlocks_ne_refused (q : Refusal) (n : Nat) (s : State) : hashBlocks n s ≠ .refused q := by
  induction n generalizing s with
  | zero => nofun
  | succ n ih =>
    exact andThen_ne_refused (andThen_ne_refused (deliverBlock_ne_refused q s) fun _ => next_ne_refused _ q) ih

theorem execHash_ne_refused (q : Refusal) (s : State) : execHash s ≠ .refused q := by
  by_cases hr : s.rejects
  · rw [execHash_of_rejects hr]
    nofun
  · rw [execHash_of_not_rejects hr]
    refine andThen_ne_refused (padStage_ne_refused q _) fun u => ?_
    split
    · nofun
    · exact andThen_ne_refused (hashBlocks_ne_refused q _ u) fun _ => next_ne_refused _ q

theorem exec_ne_refused (i : Instr) (s : State) (q : Refusal) : exec i s ≠ .refused q := by
  cases i with
  | init => exact next_ne_refused _ q
  | pad => exact unlessError_ne_refused (padStage_ne_refused q) s
  | chunk => exact unlessError_ne_refused (chunkStage_ne_refused q) s
  | hash => exact execHash_ne_refused q s
  | sched | compress | digest | reserved00 | reserved08 _ | reserved10 _ | reserved20 _ | reserved40 _
  | reserved80 _ => exact unlessError_ne_refused (fun _ => next_ne_refused _ q) s

/-! ### Completion with legal lengths -/

theorem unlessError_completes {s : State} {run : State → Result} (h : ∃ t, run s = .next t) :
    ∃ t, unlessError s run = .next t := by
  by_cases he : s.status.err = none
  · rwa [unlessError_of_none he]
  · exact ⟨_, unlessError_of_ne_none he run⟩

theorem unlessError_next_completes (f : State → State) (s : State) :
    ∃ t, unlessError s (fun s => .next (f s)) = .next t := unlessError_completes ⟨_, rfl⟩

theorem chunkStage_of_no_error {s : State} (hal : s.plen.toNat % 64 = 0) (hin : 64 * (s.bi.toNat + 1) ≤ s.plen.toNat) :
    chunkStage s = deliverBlock s := by
  rw [chunkStage, if_neg (by omega), if_neg (by omega)]

theorem chunkStage_completes {s : State} (h : s.plen.toNat ≤ s.cfg.pmMax) : ∃ t, chunkStage s = .next t := by
  rw [chunkStage]
  split_ifs
  · exact ⟨_, rfl⟩
  · exact ⟨_, rfl⟩
  · exact ⟨_, withinBuffer_of_le (by omega) _⟩

theorem execHash_completes {s : State} (h : s.len.toNat ≤ s.cfg.msgMax) : ∃ t, execHash s = .next t := by
  by_cases hr : s.rejects
  · exact ⟨_, execHash_of_rejects hr⟩
  · exact ⟨_, execHash_eq h hr⟩

/-- With legal lengths every command answers a next state (R109, R121). -/
theorem exec_completes (i : Instr) {s : State} (h : s.Legal) : ∃ t, exec i s = .next t := by
  obtain ⟨hlen, hplen⟩ := h
  cases i with
  | init => exact ⟨_, rfl⟩
  | pad => exact unlessError_completes ⟨_, padStage_of_le hlen⟩
  | chunk => exact unlessError_completes (chunkStage_completes hplen)
  | hash => exact execHash_completes hlen
  | sched => exact unlessError_next_completes schedStage s
  | compress => exact unlessError_next_completes compressStage s
  | digest => exact unlessError_next_completes digestStage s
  | reserved00 | reserved08 _ | reserved10 _ | reserved20 _ | reserved40 _ | reserved80 _ =>
    exact unlessError_next_completes (raise .internalInvariantViolation) s

/-! ### The accesses beyond a buffer -/

theorem execHash_of_lt {s : State} (h : s.cfg.msgMax < s.len.toNat) : execHash s = .fault .beyondBuffer := by
  have hr : ¬ s.rejects := by
    rintro ⟨h0, -⟩
    rw [h0] at h
    exact absurd h (Nat.not_lt_zero _)
  have hpad : padStage (initStage s) = .fault .beyondBuffer := padStage_of_lt h
  rw [execHash_of_not_rejects hr, hpad, andThen_fault]

/-- Settles O36: a command that faults had illegal lengths, since with legal ones it completes. -/
theorem onlyIllegalLengthsFault : Obligations.OnlyIllegalLengthsFault := by
  refine ⟨exec_ne_refused, fun s he hlt => ?_, fun s hlt => execHash_of_lt hlt, fun s he hal hin hlt => ?_,
    fun i s f hf hlegal => ?_⟩
  · exact (unlessError_of_none he padStage).trans (padStage_of_lt hlt)
  · calc exec .chunk s = chunkStage s := unlessError_of_none he chunkStage
      _ = deliverBlock s := chunkStage_of_no_error hal hin
      _ = .fault .beyondBuffer := withinBuffer_of_lt hlt _
  · obtain ⟨t, ht⟩ := exec_completes i hlegal
    rw [ht] at hf
    cases hf

end Sys2Proof.Machine
end

section
/-! SUPPORT. The host's side of a step: when a host action is accepted, what the step then answers, and the elements of
the state as the host names them. -/

namespace Sys2Proof.Machine

/-! ### Acceptance and refusal of a host action -/

theorem msgMax_lt (c : Config) : c.msgMax < 2 ^ 61 := c.msgCapacity.isLt

/-- A HostWrite passes every check of the model. -/
theorem actionProblem_write_eq_none_iff_checks {c : Config} {l : Loc} {v : Nat} :
    actionProblem c (.write l v) = none ↔
      writable l = true ∧ hasElement c l = true ∧ v < 2 ^ widthOf l ∧ legalValue c l v = true := by
  rw [actionProblem]
  split_ifs <;> simp_all

/-- The model's checks on a HostWrite accept what R26 accepts, register by register. -/
theorem actionProblem_write_eq_none_iff {c : Config} {l : Loc} {v : Nat} :
    actionProblem c (.write l v) = none ↔ writeAccepted c l v := by
  have hmsg := msgMax_lt c
  have hpm := pmMax_lt c
  rw [actionProblem_write_eq_none_iff_checks]
  cases l with
  | len | plen =>
    simp only [writable, hasElement, widthOf, legalValue, writeAccepted, decide_eq_true_eq, true_and]
    omega
  | msg i | pm i | blk i | bi | w i | h i | t i | dig i | status | cmd | hinit i | k i =>
    simp [writable, hasElement, widthOf, legalValue, writeAccepted]

theorem actionProblem_write_of_absent {c : Config} {l : Loc} {v : Nat} (hw : writable l = true)
    (he : hasElement c l = false) : actionProblem c (.write l v) = some .noSuchElement := by
  simp [actionProblem, hw, he]

theorem actionProblem_write_of_wide {c : Config} {l : Loc} {v : Nat} (hw : writable l = true)
    (he : hasElement c l = true) (hv : 2 ^ widthOf l ≤ v) :
    actionProblem c (.write l v) = some .valueTooWide := by
  simp [actionProblem, hw, he, hv]

/-- An illegal length that also exceeds the element's width is reported as too wide. -/
theorem actionProblem_write_of_illegal {c : Config} {l : Loc} {v : Nat} (hw : writable l = true)
    (he : hasElement c l = true) (hl : legalValue c l v = false) :
    actionProblem c (.write l v) = some .illegalLength ∨
      2 ^ widthOf l ≤ v ∧ actionProblem c (.write l v) = some .valueTooWide := by
  by_cases hv : 2 ^ widthOf l ≤ v
  · exact .inr ⟨hv, actionProblem_write_of_wide hw he hv⟩
  · exact .inl (by simp [actionProblem, hw, he, hv, hl])

theorem actionProblem_read_of_absent {c : Config} {l : Loc} (hr : readable l = true)
    (he : hasElement c l = false) : actionProblem c (.read l) = some .noSuchElement := by
  simp [actionProblem, hr, he]

/-- The model's checks on a HostRead accept what R27 accepts, register by register. -/
theorem actionProblem_read_eq_none_iff {c : Config} {l : Loc} :
    actionProblem c (.read l) = none ↔ readAccepted c l := by
  cases l <;> simp [actionProblem, readable, hasElement, readAccepted]

/-- A step with an action at the head of the script performs that action. -/
theorem step_of_script {s : State} {a : HostAction} {rest : List HostAction} (h : s.script = a :: rest) :
    step s = perform a { s with script := rest } := by
  rw [step, performNext, h]

theorem step_of_problem {s : State} {a : HostAction} {rest : List HostAction} {q : Refusal}
    (h : s.script = a :: rest) (hq : actionProblem s.cfg a = some q) : step s = .refused q := by
  simp only [step_of_script h, perform, hq]

theorem step_refused_of_problem {s : State} {a : HostAction} {rest : List HostAction}
    (h : s.script = a :: rest) (hq : actionProblem s.cfg a ≠ none) : ∃ q, step s = .refused q := by
  obtain ⟨q, hq⟩ := Option.ne_none_iff_exists'.1 hq
  exact ⟨q, step_of_problem h hq⟩

theorem step_reset {s : State} {rest : List HostAction} (h : s.script = .reset :: rest) :
    step s = .next (hostReset { s with script := rest }) := step_of_script h

theorem step_command {s : State} {c : Byte} {rest : List HostAction} (h : s.script = .command c :: rest) :
    step s = exec (decodeCommand c) { s with script := rest } := step_of_script h

theorem step_read {s : State} {l : Loc} {rest : List HostAction} (h : s.script = .read l :: rest)
    (ha : readAccepted s.cfg l) : step s = .next (hostRead l { s with script := rest }) := by
  simp only [step_of_script h, perform, actionProblem_read_eq_none_iff.2 ha]

theorem step_write {s : State} {l : Loc} {v : Nat} {rest : List HostAction} (h : s.script = .write l v :: rest)
    (ha : writeAccepted s.cfg l v) : step s = hostWrite l v { s with script := rest } := by
  simp only [step_of_script h, perform, actionProblem_write_eq_none_iff.2 ha]

/-- A HostWrite to CMD is the command, with nothing stored (R23). -/
theorem step_write_cmd {s : State} {v : Nat} {rest : List HostAction} (h : s.script = .write .cmd v :: rest)
    (hv : v < 2 ^ 8) : step s = exec (decodeCommand (BitVec.ofNat 8 v)) { s with script := rest } :=
  step_write h hv

theorem hostWrite_of_ne_cmd {l : Loc} (h : l ≠ .cmd) (v : Nat) (s : State) :
    hostWrite l v s = .next (clearDv (storeElement l v s)) := by
  cases l with
  | cmd => exact absurd rfl h
  | msg i | len | pm i | plen | blk i | bi | w i | h i | t i | dig i | status | hinit i | k i => rfl

/-! ### The elements of the state -/

theorem vector_getD_eq_toList_getD {α : Type} {n : Nat} (xs : Vector α n) (i : Nat) (d : α) :
    xs.getD i d = xs.toList.getD i d := by
  simp [Vector.getD, Array.getD_eq_getD_getElem?, List.getD_eq_getElem?_getD]

theorem vector_getD_setIfInBounds {α : Type} {n : Nat} (xs : Vector α n) (i j : Nat) (x d : α) :
    (xs.setIfInBounds i x).getD j d = if j = i ∧ i < n then x else xs.getD j d := by
  simp only [vector_getD_eq_toList_getD, Vector.toList_setIfInBounds, List.getD_eq_getElem?_getD,
    List.getElem?_set, Vector.length_toList]
  by_cases hij : j = i
  · subst hij
    by_cases hj : j < n <;> simp [hj]
  · simp [hij, Ne.symm hij]

theorem lookup_write_singleton (m : Memory) (a x : Nat) (b : Byte) :
    (m.write a [b]).lookup x = if x = a then some b else m.lookup x := by
  rw [Memory.lookup_write, List.length_singleton]
  by_cases hx : x = a
  · subst hx
    simp
  · rw [if_neg hx, if_neg (by omega)]

/-- A read of the element just written, where R26 accepts the write. -/
theorem loadElement_storeElement_same {c : Config} {l : Loc} {v : Nat} (h : writeAccepted c l v) (hl : l ≠ .cmd)
    (s : State) : loadElement l (storeElement l v s) = v := by
  have hmsg := msgMax_lt c
  have hpm := pmMax_lt c
  cases l with
  | cmd => exact absurd rfl hl
  | t i | dig i | status | hinit i | k i => exact h.elim
  | msg i | pm i =>
    simp only [loadElement, storeElement, State.msgCell, State.pmCell, lookup_write_singleton, if_true,
      Option.getD_some]
    exact Nat.mod_eq_of_lt h.2
  | len | plen =>
    have hv : v < 2 ^ 64 := by simp only [writeAccepted] at h; omega
    exact Nat.mod_eq_of_lt hv
  | bi => exact Nat.mod_eq_of_lt h
  | blk i | w i | h i =>
    obtain ⟨hi, hv⟩ := h
    simp only [loadElement, storeElement, vector_getD_setIfInBounds, hi, and_self, if_true]
    exact Nat.mod_eq_of_lt hv

/-- A write leaves every other element as it reads. -/
theorem loadElement_storeElement_of_ne {l l' : Loc} (h : l' ≠ l) (v : Nat) (s : State) :
    loadElement l' (storeElement l v s) = loadElement l' s := by
  cases l with
  | t i | dig i | status | cmd | hinit i | k i => rfl
  | len | plen | bi | msg i | pm i | blk i | w i | h i =>
    cases l' <;> simp_all [loadElement, storeElement, State.msgCell, State.pmCell, lookup_write_singleton,
      vector_getD_setIfInBounds]

/-- DV is part of no element but STATUS. -/
theorem loadElement_clearDv {l : Loc} (h : l ≠ .status) (s : State) :
    loadElement l (clearDv s) = loadElement l s := by
  cases l with
  | status => exact absurd rfl h
  | msg i | len | pm i | plen | blk i | bi | w i | h i | t i | dig i | cmd | hinit i | k i => rfl

/-- No element is part of the host's side. -/
theorem loadElement_host (l : Loc) (s : State) (rest : List HostAction) (vs : List Nat) :
    loadElement l { s with script := rest, replies := vs } = loadElement l s := by
  cases l <;> rfl

/-- An accepted HostRead hands the element over and leaves every register. -/
theorem step_read_eq {s : State} {l : Loc} {rest : List HostAction} (h : s.script = .read l :: rest)
    (ha : readAccepted s.cfg l) :
    step s = .next { s with script := rest, replies := loadElement l s :: s.replies } := by
  rw [step_read h ha, hostRead, loadElement_host l s rest s.replies]

/-- Settles O7: the value stored is read back as the element, and every other element and the host's side are framed. -/
theorem hostWriteStoresOneElement : Obligations.HostWriteStoresOneElement := by
  intro s l v rest hs
  refine ⟨fun ha hl => ?_, fun ha hl => ?_, fun ha => ?_⟩
  · have hstep := (step_write hs ha).trans (hostWrite_of_ne_cmd hl v _)
    have hstatus : l ≠ .status := by
      rintro rfl
      exact ha
    obtain ⟨hcfg, -, -, hst, hdraws, hscript, hreplies⟩ := storeElement_frame l v { s with script := rest }
    refine ⟨_, hstep, ?_, fun l' hne hne' => ?_, ?_, hcfg, hdraws, hscript, hreplies⟩
    · rw [loadElement_clearDv hstatus, loadElement_storeElement_same ha hl]
    · rw [loadElement_clearDv hne', loadElement_storeElement_of_ne hne]
      exact loadElement_host l' s rest s.replies
    · rw [clearDv_status, hst]
  · subst hl
    exact step_write_cmd hs ha
  · exact step_refused_of_problem hs (mt actionProblem_write_eq_none_iff.1 ha)

theorem core_run_succ_of_next {M : Host.Core} {s t : M.State} (h : M.step s = .next t) (k : Nat) :
    M.run (k + 1) s = M.run k t := by
  rw [Host.Core.run, h]

/-- Settles O8: an accepted read hands over `loadElement`, which no host-side field enters, so a second read agrees. -/
theorem hostReadReturnsTheElement : Obligations.HostReadReturnsTheElement := by
  intro s l rest hs
  refine ⟨fun ha => ⟨loadElement l s, ?_, ?_, fun rest' hrest => ?_⟩, fun ha => ?_⟩
  · exact step_read_eq hs ha
  · cases l with
    | blk i | w i | h i | t i | dig i => simp only [loadElement, vector_getD_eq_toList_getD]
    | hinit i | k i => exact ha.elim
    | msg i | len | pm i | plen | bi | status | cmd => rfl
  · have hs' : ({ s with script := rest, replies := loadElement l s :: s.replies } : State).script =
        .read l :: rest' := hrest
    rw [core_run_succ_of_next (M := core) (step_read_eq hs ha), core_run_succ_of_next (M := core) (step_read_eq hs' ha)]
    rfl
  · exact step_refused_of_problem hs (mt actionProblem_read_eq_none_iff.1 ha)

/-- Settles O4: Command and a HostWrite to CMD are one action, and CMD reads as 0. -/
theorem cmdWriteExecutesTheDecodedCommand : Obligations.CmdWriteExecutesTheDecodedCommand := by
  refine ⟨fun s c rest hs => step_command hs, fun s c rest hs => ?_, fun s rest hs => step_read hs trivial⟩
  rw [step_write_cmd hs c.isLt, BitVec.ofNat_toNat, BitVec.setWidth_eq]

/-- Settles O6: with no cell listed, MSG and PM read as the free values of the new draw. -/
theorem resetClearsControlStateOnly : Obligations.ResetClearsControlStateOnly := by
  intro s rest hs
  exact ⟨_, step_reset hs, rfl, rfl, rfl, by rw [hostReset_status]; decide, rfl, fun _ => rfl, fun _ => rfl,
    fun _ => Vector.getElem_ofFn _, fun _ => Vector.getElem_ofFn _, fun _ => Vector.getElem_ofFn _,
    fun _ => Vector.getElem_ofFn _, fun _ => Vector.getElem_ofFn _, rfl, rfl, rfl⟩

/-- Settles O9: each action is stopped by the first check it does not pass. -/
theorem refusedHostActionsHaveNoStep : Obligations.RefusedHostActionsHaveNoStep := by
  intro s i v rest
  refine ⟨?_, ?_, ?_, ?_, ?_, ?_⟩
  · rintro l (rfl | rfl | rfl | rfl | rfl) hs <;> exact step_of_problem hs rfl
  · rintro l (rfl | rfl) hs <;> exact step_of_problem hs rfl
  · rintro l (⟨rfl, hi⟩ | ⟨rfl, hi⟩ | ⟨rfl | rfl, hi⟩ | ⟨rfl, hi⟩) (hs | hs)
    all_goals have habs := decide_eq_false (Nat.not_lt.2 hi)
    iterate 5
      · exact step_of_problem hs (actionProblem_write_of_absent rfl habs)
      · exact step_of_problem hs (actionProblem_read_of_absent rfl habs)
  · rintro l (⟨rfl, hi⟩ | ⟨rfl, hi⟩) hs <;>
      exact step_of_problem hs (actionProblem_read_of_absent rfl (decide_eq_false (Nat.not_lt.2 hi)))
  · rintro l (⟨rfl, hi, hv⟩ | ⟨rfl, hi, hv⟩ | ⟨rfl, hi, hv⟩ | ⟨rfl, hi, hv⟩ | ⟨rfl, hi, hv⟩ | ⟨rfl, hv⟩ |
      ⟨rfl, hv⟩) hs
    iterate 5 exact step_of_problem hs (actionProblem_write_of_wide rfl (decide_eq_true hi) hv)
    iterate 2 exact step_of_problem hs (actionProblem_write_of_wide rfl rfl hv)
  · rintro l (⟨rfl, hv⟩ | ⟨rfl, hv⟩) hs <;>
      exact Or.imp (step_of_problem hs) (And.imp_right (step_of_problem hs))
        (actionProblem_write_of_illegal rfl rfl (decide_eq_false (Nat.not_le.2 hv)))

end Sys2Proof.Machine
end

section
/-! SUPPORT. The machine's invariant: each part of a command and each host action keeps it, so every step does. -/

namespace Sys2Proof.Machine

/-- With DV = 0 the invariant is that of the lengths and the buffers. -/
theorem State.Inv.of_dv_false {t : State} (legal : t.Legal) (msgWf : Memory.wf t.msg) (pmWf : Memory.wf t.pm)
    (msgBound : ∀ c ∈ t.msg, c.1 < t.cfg.msgMax) (pmBound : ∀ c ∈ t.pm, c.1 < t.cfg.pmMax)
    (hdv : t.status.dv = false) : t.Inv :=
  ⟨legal, msgWf, pmWf, msgBound, pmBound, fun _ => hdv, fun h => absurd (hdv.symm.trans h) Bool.false_ne_true⟩

/-- An update that clears DV and touches neither buffer nor length keeps the invariant. -/
theorem State.Inv.of_keepsInputs {s t : State} (hs : s.Inv) (hk : KeepsInputs s t) (hpm : t.pm = s.pm)
    (hplen : t.plen = s.plen) (hdv : t.status.dv = false) : t.Inv := by
  obtain ⟨⟨hlen, hplenLe⟩, hmsgWf, hpmWf, hmsgBound, hpmBound, -, -⟩ := hs
  refine .of_dv_false ⟨?_, ?_⟩ ?_ ?_ ?_ ?_ hdv
  · rwa [hk.len, hk.cfg]
  · rwa [hplen, hk.cfg]
  · rwa [hk.msg]
  · rwa [hpm]
  · rwa [hk.msg, hk.cfg]
  · rwa [hpm, hk.cfg]

/-- The host's side of the state is no part of the invariant. -/
theorem State.Inv.host {s : State} (hs : s.Inv) (rest : List HostAction) (vs : List Nat) :
    State.Inv { s with script := rest, replies := vs } :=
  ⟨hs.legal, hs.msgWf, hs.pmWf, hs.msgBound, hs.pmBound, hs.errorNotValid, hs.validDigest⟩

/-! ### The parts of the commands -/

theorem inv_clearDv {s : State} (hs : s.Inv) : (clearDv s).Inv :=
  hs.of_keepsInputs ⟨rfl, rfl, rfl, rfl, rfl, rfl⟩ rfl rfl rfl

theorem inv_raise {s : State} (hs : s.Inv) (e : ErrorKind) : (raise e s).Inv :=
  hs.of_keepsInputs ⟨rfl, rfl, rfl, rfl, rfl, rfl⟩ rfl rfl rfl

theorem inv_initStage {s : State} (hs : s.Inv) : (initStage s).Inv :=
  hs.of_keepsInputs ⟨rfl, rfl, rfl, rfl, rfl, rfl⟩ rfl rfl rfl

theorem inv_delivered {s : State} (hs : s.Inv) : (delivered s).Inv :=
  hs.of_keepsInputs ⟨rfl, rfl, rfl, rfl, rfl, rfl⟩ rfl rfl rfl

theorem inv_schedStage {s : State} (hs : s.Inv) : (schedStage s).Inv :=
  hs.of_keepsInputs ⟨rfl, rfl, rfl, rfl, rfl, rfl⟩ rfl rfl rfl

theorem inv_compressStage {s : State} (hs : s.Inv) : (compressStage s).Inv :=
  hs.of_keepsInputs ⟨rfl, rfl, rfl, rfl, rfl, rfl⟩ rfl rfl rfl

/-- DIGEST sets DV where no error is recorded, with `Serialize(H)` in DIG. -/
theorem inv_digestStage {s : State} (hs : s.Inv) (herr : s.status.err = none) : (digestStage s).Inv :=
  ⟨hs.legal, hs.msgWf, hs.pmWf, hs.msgBound, hs.pmBound, fun h => absurd herr h, fun _ => rfl⟩

theorem padStage_keeps_inv {s t : State} (hs : s.Inv) (h : padStage s = .next t) : t.Inv := by
  obtain ⟨hlen, hfit, rfl⟩ := padStage_next h
  have hplen : (padded s).plen.toNat ≤ (padded s).cfg.pmMax := by
    rw [padded_plen_toNat hlen]
    exact padLen_le_pmMax hlen
  exact .of_dv_false ⟨hs.legal.1, hplen⟩ hs.msgWf (Memory.wf_write hs.pmWf _ _) hs.msgBound
    (Memory.bound_write hs.pmBound (by rwa [Nat.zero_add])) rfl

theorem chunkStage_keeps_inv {s t : State} (hs : s.Inv) (h : chunkStage s = .next t) : t.Inv := by
  rcases chunkStage_next h with ⟨-, rfl⟩ | ⟨-, -, hd⟩
  · exact inv_raise hs _
  · obtain ⟨-, rfl⟩ := deliverBlock_next hd
    exact inv_delivered hs

theorem hashBlock_keeps_inv {s t : State} (hs : s.Inv) (h : hashBlock s = .next t) : t.Inv := by
  obtain ⟨u, hu, rfl⟩ := hashBlock_next h
  obtain ⟨-, rfl⟩ := deliverBlock_next hu
  exact inv_compressStage (inv_schedStage (inv_delivered hs))

/-- HASH, where it answers a next state: the rejection, or INIT, PAD, the loop and DIGEST on a legal message. -/
theorem execHash_next_cases {s t : State} (h : execHash s = .next t) :
    (s.rejects ∧ t = raise .invalidInput s) ∨
      (¬ s.rejects ∧ s.len.toNat ≤ s.cfg.msgMax ∧ t = digestStage (hashLoopEnd s)) := by
  by_cases hr : s.rejects
  · rw [execHash_of_rejects hr] at h
    cases h
    exact .inl ⟨hr, rfl⟩
  · have hlen : s.len.toNat ≤ s.cfg.msgMax := by
      by_contra hlt
      rw [execHash_of_lt (by omega)] at h
      cases h
    rw [execHash_eq hlen hr] at h
    cases h
    exact .inr ⟨hr, hlen, rfl⟩

theorem execHash_keeps_inv {s t : State} (hs : s.Inv) (h : execHash s = .next t) : t.Inv := by
  rcases execHash_next_cases h with ⟨-, rfl⟩ | ⟨-, hlen, rfl⟩
  · exact inv_raise hs _
  · have hpad : (padded (initStage s)).Inv := padStage_keeps_inv (inv_initStage hs) (padStage_of_le hlen)
    have hloop : (hashLoopEnd s).Inv :=
      hashBlocks_induction (fun _ _ => hashBlock_keeps_inv) _ hpad (hashBlocks_padded hlen)
    obtain ⟨-, -, herr, -⟩ := hashLoopEnd_frame hlen
    exact inv_digestStage hloop herr

/-- Every command that answers a next state keeps the invariant. -/
theorem exec_keeps_inv {i : Instr} {s t : State} (hs : s.Inv) (h : exec i s = .next t) : t.Inv := by
  rcases exec_next h with ⟨-, -, -, rfl⟩ | ⟨-, rfl⟩ | ⟨-, -, hpad⟩ | ⟨-, -, hchunk⟩ | ⟨-, -, rfl⟩ | ⟨-, -, rfl⟩ |
    ⟨-, herr, rfl⟩ | ⟨-, hhash⟩ | ⟨-, -, rfl⟩
  · exact inv_clearDv hs
  · exact inv_initStage hs
  · exact padStage_keeps_inv hs hpad
  · exact chunkStage_keeps_inv hs hchunk
  · exact inv_schedStage hs
  · exact inv_compressStage hs
  · exact inv_digestStage hs herr
  · exact execHash_keeps_inv hs hhash
  · exact inv_raise hs _

/-! ### The host's actions -/

theorem inv_hostReset (s : State) : (hostReset s).Inv :=
  .of_dv_false ⟨Nat.zero_le _, Nat.zero_le _⟩ .nil .nil nofun nofun rfl

/-- An accepted HostWrite stores within the buffers and no illegal length. -/
theorem inv_clearDv_storeElement {s : State} {l : Loc} {v : Nat} (hs : s.Inv) (ha : writeAccepted s.cfg l v) :
    (clearDv (storeElement l v s)).Inv := by
  cases l with
  | msg i =>
    exact .of_dv_false hs.legal (Memory.wf_write hs.msgWf _ _) hs.pmWf
      (Memory.bound_write hs.msgBound ha.1) hs.pmBound rfl
  | pm i =>
    exact .of_dv_false hs.legal hs.msgWf (Memory.wf_write hs.pmWf _ _) hs.msgBound
      (Memory.bound_write hs.pmBound ha.1) rfl
  | len =>
    have hv : (BitVec.ofNat 64 v).toNat ≤ s.cfg.msgMax := (Nat.mod_le _ _).trans ha
    exact .of_dv_false ⟨hv, hs.legal.2⟩ hs.msgWf hs.pmWf hs.msgBound hs.pmBound rfl
  | plen =>
    have hv : (BitVec.ofNat 64 v).toNat ≤ s.cfg.pmMax := (Nat.mod_le _ _).trans ha
    exact .of_dv_false ⟨hs.legal.1, hv⟩ hs.msgWf hs.pmWf hs.msgBound hs.pmBound rfl
  | blk i | bi | w i | h i | t i | dig i | status | cmd | hinit i | k i =>
    exact hs.of_keepsInputs ⟨rfl, rfl, rfl, rfl, rfl, rfl⟩ rfl rfl rfl

/-- Settles O43: every host action keeps the invariant, and a command by `exec_keeps_inv`. -/
theorem everyStepKeepsTheInvariant : Obligations.EveryStepKeepsTheInvariant := by
  intro s t hs h
  rcases step_next h with ⟨-, rfl⟩ |
    ⟨a, rest, -, hok, ⟨-, rfl⟩ | ⟨l, v, rfl, -, rfl⟩ | ⟨l, -, rfl⟩ | ⟨c, -, hc⟩⟩
  · exact hs
  · exact inv_hostReset _
  · exact inv_clearDv_storeElement (hs.host rest s.replies) (actionProblem_write_eq_none_iff.1 hok)
  · exact (hs.host rest s.replies).host rest _
  · exact exec_keeps_inv (hs.host rest s.replies) hc

end Sys2Proof.Machine
end

section
/-! SUPPORT. What a command leaves in STATUS and BI, and what the result of HASH depends on. -/

namespace Sys2Proof.Machine

theorem chunkStage_dv {s t : State} (h : chunkStage s = .next t) : t.status.dv = false := by
  rcases chunkStage_next h with ⟨-, rfl⟩ | ⟨-, -, hd⟩
  · rfl
  · obtain ⟨-, rfl⟩ := deliverBlock_next hd
    rfl

/-- Settles O38: DIGEST is the one stage that sets DV, where it is not ignored, and HASH ends with it. -/
theorem digestValidAfterDigestOrHashOnly : Obligations.DigestValidAfterDigestOrHashOnly := by
  intro i s t h
  rcases exec_next h with ⟨-, hne, herr, rfl⟩ | ⟨rfl, rfl⟩ | ⟨rfl, -, hpad⟩ | ⟨rfl, -, hchunk⟩ | ⟨rfl, -, rfl⟩ |
    ⟨rfl, -, rfl⟩ | ⟨rfl, herr, rfl⟩ | ⟨rfl, hhash⟩ | ⟨hres, -, rfl⟩
  · simp [hne, herr]
  · simp
  · obtain ⟨-, -, rfl⟩ := padStage_next hpad
    simp
  · simp [chunkStage_dv hchunk]
  · simp
  · simp
  · simp [herr]
  · rcases execHash_next_cases hhash with ⟨hr, rfl⟩ | ⟨hr, -, rfl⟩ <;> simp [hr]
  · have hdig : i ≠ .digest := by
      rintro rfl
      cases hres
    have hhash : i ≠ .hash := by
      rintro rfl
      cases hres
    simp [hdig, hhash]

/-- Settles O40: CHUNK delivers only a Block within PLEN, so BI cannot wrap. -/
theorem blockIndexMovesByOneOrRestarts : Obligations.BlockIndexMovesByOneOrRestarts := by
  intro i s t h
  rcases exec_next h with ⟨-, -, -, rfl⟩ | ⟨rfl, rfl⟩ | ⟨-, -, hpad⟩ | ⟨rfl, -, hchunk⟩ | ⟨-, -, rfl⟩ |
    ⟨-, -, rfl⟩ | ⟨-, -, rfl⟩ | ⟨rfl, hhash⟩ | ⟨-, -, rfl⟩
  · exact .inl rfl
  · exact .inr (.inr (.inl ⟨rfl, rfl⟩))
  · obtain ⟨-, -, rfl⟩ := padStage_next hpad
    exact .inl rfl
  · rcases chunkStage_next hchunk with ⟨-, rfl⟩ | ⟨-, hin, hd⟩
    · exact .inl rfl
    · obtain ⟨-, rfl⟩ := deliverBlock_next hd
      exact .inr (.inl ⟨rfl, blockHashed_bi_toNat (by omega), hin⟩)
  · exact .inl rfl
  · exact .inl rfl
  · exact .inl rfl
  · rcases execHash_next_cases hhash with ⟨-, rfl⟩ | ⟨-, hlen, rfl⟩
    · exact .inl rfl
    · exact .inr (.inr (.inr ⟨rfl, hashLoopEnd_bi_toNat hlen⟩))
  · exact .inl rfl

theorem message_congr {s s' : State} (hlen : s.len = s'.len)
    (hmsg : ∀ a, a < s.len.toNat → s.msgCell a = s'.msgCell a) : s.message = s'.message := by
  rw [State.message, State.message, ← hlen]
  exact List.map_congr_left fun a ha => hmsg a (List.mem_range.1 ha)

/-- What the loop of HASH leaves in the registers it writes is a function of the Message. -/
theorem hashLoopEnd_congr {s s' : State} (hlegal : s.len.toNat ≤ s.cfg.msgMax)
    (hlegal' : s'.len.toNat ≤ s'.cfg.msgMax) (hlen : s.len = s'.len) (hmsg : s.message = s'.message) :
    (hashLoopEnd s).h = (hashLoopEnd s').h ∧ (hashLoopEnd s).t = (hashLoopEnd s').t ∧
      (hashLoopEnd s).w = (hashLoopEnd s').w ∧ (hashLoopEnd s).blk = (hashLoopEnd s').blk ∧
      (hashLoopEnd s).bi = (hashLoopEnd s').bi := by
  obtain ⟨hlast, hw, h, hh, htmp, hacc⟩ := hashLoopEnd_last hlegal
  obtain ⟨hlast', hw', h', hh', htmp', hacc'⟩ := hashLoopEnd_last hlegal'
  rw [hmsg] at hlast hh
  have hstart : h = h' := hh.trans hh'.symm
  have hblk : (hashLoopEnd s).blk = (hashLoopEnd s').blk := Option.some.inj (hlast.symm.trans hlast')
  have hsched : (hashLoopEnd s).w = (hashLoopEnd s').w := by rw [hw, hw', hblk]
  have htmps : (hashLoopEnd s).t = (hashLoopEnd s').t := by rw [htmp, htmp', hstart, hsched]
  refine ⟨by rw [hacc, hacc', hstart, htmps], htmps, hsched, hblk, BitVec.eq_of_toNat_eq ?_⟩
  rw [hashLoopEnd_bi_toNat hlegal, hashLoopEnd_bi_toNat hlegal', hlen]

/-- Settles O30: where both runs complete, each ends its loop in registers that LEN and the Message give. -/
theorem hashDependsOnlyOnTheMessage : Obligations.HashDependsOnlyOnTheMessage := by
  intro s s' t t' hcfg hlen hr hmsg ht ht'
  have hr' : ¬ s'.rejects := by rwa [State.rejects, ← hcfg, ← hlen]
  have hm := message_congr hlen hmsg
  obtain ⟨hrej, -⟩ | ⟨-, hlegal, rfl⟩ := execHash_next_cases ht
  · exact absurd hrej hr
  obtain ⟨hrej, -⟩ | ⟨-, hlegal', rfl⟩ := execHash_next_cases ht'
  · exact absurd hrej hr'
  obtain ⟨hh, htmp, hw, hblk, hbi⟩ := hashLoopEnd_congr hlegal hlegal' hlen hm
  obtain ⟨-, hplen, herr, -⟩ := hashLoopEnd_frame hlegal
  obtain ⟨-, hplen', herr', -⟩ := hashLoopEnd_frame hlegal'
  refine ⟨congrArg serialize hh, hh, htmp, hw, hblk, hbi, ?_, ?_, fun a ha => Option.some.inj ?_⟩
  · calc (hashLoopEnd s).plen = BitVec.ofNat 64 (padMessage s.message).length := hplen
      _ = BitVec.ofNat 64 (padMessage s'.message).length := by rw [hm]
      _ = (hashLoopEnd s').plen := hplen'.symm
  · simp only [digestStage_status, herr, herr']
  · calc some ((hashLoopEnd s).pmCell a) = (padMessage s.message)[a]? := hashLoopEnd_pmCell_of_lt hlegal ha
      _ = (padMessage s'.message)[a]? := by rw [hm]
      _ = some ((hashLoopEnd s').pmCell a) := (hashLoopEnd_pmCell_of_lt hlegal' (hlen ▸ ha)).symm

end Sys2Proof.Machine
end

section
/-! SUPPORT. STATUS as a byte (R22): its three fields do not overlap. -/

namespace Sys2Proof.Machine

theorem toByte_extract_err (st : Status) : st.toByte.extractLsb' 0 2 = st.errCode :=
  BitVec.extractLsb'_append_eq_right

theorem toByte_getLsbD_dv (st : Status) : st.toByte.getLsbD 2 = st.dv := by
  rw [Status.toByte, BitVec.getLsbD_append, if_neg (by decide), BitVec.getLsbD_append, if_pos (by decide)]
  exact BitVec.getLsbD_ofBool _ 0

theorem toByte_extract_zeros (st : Status) : st.toByte.extractLsb' 3 5 = 0#5 := by
  rw [Status.toByte, BitVec.extractLsb'_append_eq_of_le (by decide)]
  exact BitVec.extractLsb'_append_eq_left

/-- Settles O39: the field at bits 1:0 is `Status.errCode`, whose three values are the codes of R113. -/
theorem statusByteFields : Obligations.StatusByteFields := by
  intro st
  refine ⟨?_, toByte_getLsbD_dv st, toByte_extract_zeros st⟩
  rw [toByte_extract_err]
  rcases st with ⟨_ | _ | _, dv⟩ <;> rfl

end Sys2Proof.Machine
end

section
/-! SUPPORT. Each stage command keeps the buffer or register it reads (R39), whether it runs or is ignored. -/

namespace Sys2Proof.Machine

/-- A gated stage that cannot fail, where it answers a next state: only DV was cleared, or the stage ran. -/
theorem unlessError_next_cases {s t : State} {f : State → State}
    (h : unlessError s (fun s => .next (f s)) = .next t) : t = clearDv s ∨ t = f s := by
  rcases unlessError_eq_next h with ⟨-, ht⟩ | ⟨-, hrun⟩
  · exact .inl ht
  · cases hrun
    exact .inr rfl

theorem chunkStage_pm_plen {s t : State} (h : chunkStage s = .next t) : t.pm = s.pm ∧ t.plen = s.plen := by
  rcases chunkStage_next h with ⟨-, rfl⟩ | ⟨-, -, hd⟩
  · exact ⟨rfl, rfl⟩
  · obtain ⟨-, rfl⟩ := deliverBlock_next hd
    exact ⟨rfl, rfl⟩

theorem execChunk_pm_plen {s t : State} (h : execChunk s = .next t) : t.pm = s.pm ∧ t.plen = s.plen := by
  rcases unlessError_eq_next h with ⟨-, rfl⟩ | ⟨-, hchunk⟩
  · exact ⟨rfl, rfl⟩
  · exact chunkStage_pm_plen hchunk

theorem execSched_blk {s t : State} (h : execSched s = .next t) : t.blk = s.blk := by
  rcases unlessError_next_cases h with rfl | rfl <;> rfl

theorem execCompress_w {s t : State} (h : execCompress s = .next t) : t.w = s.w := by
  rcases unlessError_next_cases h with rfl | rfl <;> rfl

theorem execDigest_h {s t : State} (h : execDigest s = .next t) : t.h = s.h := by
  rcases unlessError_next_cases h with rfl | rfl <;> rfl

/-- Settles O37: the Message is kept by `exec_keepsInputs`, each stage's own input by the lemma of that command. -/
theorem commandsKeepTheirInputs : Obligations.CommandsKeepTheirInputs := by
  intro i s t h
  have hk := exec_keepsInputs h
  refine ⟨hk.msg, hk.len, hk.msgCell, ?chunk, ?sched, ?compress, ?digest⟩
  case chunk =>
    rintro rfl
    obtain ⟨hpm, hplen⟩ := execChunk_pm_plen h
    exact ⟨hpm, hplen, pmCell_congr hpm hk.draws⟩
  case sched =>
    rintro rfl
    exact execSched_blk h
  case compress =>
    rintro rfl
    exact execCompress_w h
  case digest =>
    rintro rfl
    exact execDigest_h h

end Sys2Proof.Machine
end

section
/-! SUPPORT. The command word (R44, R45, R47): which words a row's mask selects, as numbers, and that decoding and
encoding are inverse to each other. -/

namespace Sys2Proof

/-- A pattern of fixed bits followed by free bits, as a number. -/
theorem toNat_fixed_append {k n : Nat} (p : BitVec k) (x : BitVec n) :
    (p ++ x).toNat = p.toNat * 2 ^ n + x.toNat := by
  rw [BitVec.toNat_append, ← Nat.shiftLeft_add_eq_or_of_lt x.isLt, Nat.shiftLeft_eq]

/-- A word with the fixed bits `p` on top is `p` followed by the word's own free bits. -/
theorem fixed_append_free {k n : Nat} {c : BitVec (k + n)} {p : BitVec k} (h : c.toNat / 2 ^ n = p.toNat) :
    p ++ c.extractLsb' 0 n = c := by
  have hp : p = c.extractLsb' n k := by
    apply BitVec.eq_of_toNat_eq
    rw [BitVec.extractLsb'_toNat, Nat.shiftRight_eq_div_pow, h, Nat.mod_eq_of_lt p.isLt]
  rw [hp, BitVec.extractLsb'_append_extractLsb']

/-- A word matches a row of the opcode table exactly when its high bits are the row's fixed bits. -/
theorem and_mask_eq_match_iff {k n : Nat} (c : BitVec (k + n)) (p : BitVec k) :
    c &&& (BitVec.allOnes k ++ 0#n) = p ++ 0#n ↔ c.toNat / 2 ^ n = p.toNat := by
  constructor
  · intro h
    rw [← BitVec.extractLsb'_append_extractLsb' (x := c), BitVec.and_append, BitVec.and_allOnes, BitVec.and_zero,
      BitVec.append_left_inj] at h
    rw [← h, BitVec.extractLsb'_toNat, Nat.shiftRight_eq_div_pow, Nat.mod_eq_of_lt]
    exact Nat.div_lt_of_lt_mul (by rw [Nat.mul_comm, ← Nat.pow_add]; exact c.isLt)
  · intro h
    rw [← fixed_append_free h, BitVec.and_append, BitVec.and_allOnes, BitVec.and_zero]

theorem and_0xF8_eq_0x08_iff (c : Byte) : c &&& 0xF8#8 = 0x08#8 ↔ c.toNat / 8 = 1 :=
  and_mask_eq_match_iff (k := 5) (n := 3) c 0b00001#5

theorem and_0xF0_eq_0x10_iff (c : Byte) : c &&& 0xF0#8 = 0x10#8 ↔ c.toNat / 16 = 1 :=
  and_mask_eq_match_iff (k := 4) (n := 4) c 0b0001#4

theorem and_0xE0_eq_0x20_iff (c : Byte) : c &&& 0xE0#8 = 0x20#8 ↔ c.toNat / 32 = 1 :=
  and_mask_eq_match_iff (k := 3) (n := 5) c 0b001#3

theorem and_0xC0_eq_0x40_iff (c : Byte) : c &&& 0xC0#8 = 0x40#8 ↔ c.toNat / 64 = 1 :=
  and_mask_eq_match_iff (k := 2) (n := 6) c 0b01#2

theorem and_0x80_eq_0x80_iff (c : Byte) : c &&& 0x80#8 = 0x80#8 ↔ c.toNat / 128 = 1 :=
  and_mask_eq_match_iff (k := 1) (n := 7) c 0b1#1

/-- Every command word is the encoding of what it decodes to: the rows tested before it leave RESERVED_80_FF exactly
the words with the top bit set. -/
theorem encodeCommand_decodeCommand (c : Byte) : encodeCommand (decodeCommand c) = c := by
  have hc := c.isLt
  fun_cases decodeCommand c
  case case1 h | case2 h | case3 h | case4 h | case5 h | case6 h | case7 h | case8 h => exact h.symm
  case case9 h => exact fixed_append_free ((and_0xF8_eq_0x08_iff c).1 h)
  case case10 h => exact fixed_append_free ((and_0xF0_eq_0x10_iff c).1 h)
  case case11 h => exact fixed_append_free ((and_0xE0_eq_0x20_iff c).1 h)
  case case12 h => exact fixed_append_free ((and_0xC0_eq_0x40_iff c).1 h)
  case case13 =>
    have h : c.toNat / 128 = 1 := by
      simp only [and_0xF8_eq_0x08_iff, and_0xF0_eq_0x10_iff, and_0xE0_eq_0x20_iff, and_0xC0_eq_0x40_iff] at *
      bv_omega
    exact fixed_append_free h

/-- No word of a row passes the test of an earlier row. -/
theorem decodeCommand_encodeCommand (i : Instr) : decodeCommand (encodeCommand i) = i := by
  cases i with
  | init | pad | chunk | sched | compress | digest | hash | reserved00 => rfl
  | reserved08 low | reserved10 low | reserved20 low | reserved40 low | reserved80 low =>
    have hlow := low.isLt
    simp only [encodeCommand, decodeCommand, and_0xF8_eq_0x08_iff, and_0xF0_eq_0x10_iff,
      and_0xE0_eq_0x20_iff, and_0xC0_eq_0x40_iff, BitVec.extractLsb'_append_eq_right]
    simp (disch := omega) only [← BitVec.toNat_inj, toNat_fixed_append, BitVec.toNat_ofNat, if_neg, if_pos]

theorem decodeCommand_eq_iff {c : Byte} {i : Instr} : decodeCommand c = i ↔ c = encodeCommand i := by
  constructor
  · rintro rfl
    exact (encodeCommand_decodeCommand c).symm
  · rintro rfl
    exact decodeCommand_encodeCommand i

theorem instr_wf (i : Instr) : i.wf = true := by
  rw [Instr.wf, beq_iff_eq]
  cases i with
  | init | pad | chunk | sched | compress | digest | hash | reserved00 => rfl
  | reserved08 low | reserved10 low | reserved20 low | reserved40 low | reserved80 low =>
    have hlow := low.isLt
    simp only [encodeCommand, tableRow, and_0xF8_eq_0x08_iff, and_0xF0_eq_0x10_iff,
      and_0xE0_eq_0x20_iff, and_0xC0_eq_0x40_iff, and_0x80_eq_0x80_iff, toNat_fixed_append, BitVec.toNat_ofNat]
    omega

/-- The seven commands are the words 1 to 7. -/
theorem isReserved_iff_encodeCommand (i : Instr) :
    i.isReserved = true ↔ ((encodeCommand i).toNat = 0 ∨ 8 ≤ (encodeCommand i).toNat) := by
  cases i with
  | init | pad | chunk | sched | compress | digest | hash | reserved00 => decide
  | reserved08 low | reserved10 low | reserved20 low | reserved40 low | reserved80 low =>
    refine iff_of_true rfl (.inr ?_)
    simp only [encodeCommand, toNat_fixed_append, BitVec.toNat_ofNat]
    omega

/-- Settles O3: the two directions of the round trip, on command words. -/
theorem decodeAndEncodeAgree : Obligations.DecodeAndEncodeAgree := by
  refine ⟨fun i rest => ?_, fun i => ⟨rfl, instr_wf i⟩, fun c rest => ⟨decodeCommand c, rfl, ?_⟩⟩
  · rw [encode, List.singleton_append, decode, decodeCommand_encodeCommand]
  · rw [encode, encodeCommand_decodeCommand]

/-- Settles O1: a word decodes to a command exactly when it is that command's encoding. -/
theorem commandWordsDecodeByTheOpcodeMap : Obligations.CommandWordsDecodeByTheOpcodeMap := fun _ =>
  ⟨decodeCommand_eq_iff, decodeCommand_eq_iff, decodeCommand_eq_iff, decodeCommand_eq_iff, decodeCommand_eq_iff,
    decodeCommand_eq_iff, decodeCommand_eq_iff⟩

/-- Settles O2: the rows by decoding an encoding, the last clause by `isReserved_iff_encodeCommand`. -/
theorem reservedWordsDecodeToTheirRows : Obligations.ReservedWordsDecodeToTheirRows := by
  refine ⟨rfl, fun x => decodeCommand_encodeCommand (.reserved08 x),
    fun x => decodeCommand_encodeCommand (.reserved10 x), fun x => decodeCommand_encodeCommand (.reserved20 x),
    fun x => decodeCommand_encodeCommand (.reserved40 x), fun x => decodeCommand_encodeCommand (.reserved80 x),
    fun c => ?_⟩
  rw [isReserved_iff_encodeCommand, encodeCommand_decodeCommand]

end Sys2Proof
end

section
/-! SUPPORT. The padded message byte by byte (R75 to R77): the message, 0x80, zero bytes, the length field. -/

namespace Sys2Proof.Machine

/-- R76 in closed form. -/
theorem zeroCount_eq_mod {r : Nat} (h : r ≤ 63) : (zeroCount r : Int) = (55 - (r : Int)) % 64 := by
  unfold zeroCount
  split_ifs <;> omega

/-- Bits `s` to `s + n - 1` of a natural that is wide enough for them, also one that wraps. -/
theorem extractLsb'_ofNat {w n s : Nat} (h : s + n ≤ w) (v : Nat) :
    (BitVec.ofNat w v).extractLsb' s n = BitVec.ofNat n (v / 2 ^ s) := by
  ext i hi
  have hs : s + i < w := by omega
  simp [BitVec.getElem_eq_testBit_toNat, Nat.testBit_div_two_pow, hs, Nat.add_comm]

theorem enc64be_getElem? {j : Nat} (h : j < 8) (v : Nat) :
    (enc64be v)[j]? = some (BitVec.ofNat 8 (v / 2 ^ (8 * (7 - j)))) := by
  simp (disch := decide) only [enc64be, extractLsb'_ofNat]
  interval_cases j <;> rfl

/-- What stands in a padded message before the length field. -/
theorem padMessage_front_length (m : List Byte) :
    (m ++ [0x80#8] ++ List.replicate (zeroCount (m.length % 64)) 0x00#8).length = padLen m.length - 8 := by
  rw [← padMessage_length, padMessage, List.length_append (bs := enc64be _), enc64be_length, Nat.add_sub_cancel]

theorem padMessage_getElem?_of_lt {m : List Byte} {i : Nat} (h : i < m.length) : (padMessage m)[i]? = m[i]? := by
  rw [padMessage, List.append_assoc, List.append_assoc, List.getElem?_append_left h]

theorem padMessage_getElem?_length (m : List Byte) : (padMessage m)[m.length]? = some 0x80#8 := by
  rw [padMessage, List.append_assoc, List.append_assoc, List.getElem?_append_right (Nat.le_refl _), Nat.sub_self]
  rfl

theorem padMessage_getElem?_zero {m : List Byte} {i : Nat} (hlo : m.length < i) (hhi : i < padLen m.length - 8) :
    (padMessage m)[i]? = some 0x00#8 := by
  have hfront := padMessage_front_length m
  have hz : i - (m.length + 1) < zeroCount (m.length % 64) := by
    simp only [List.length_append, List.length_singleton, List.length_replicate] at hfront
    omega
  rw [padMessage, List.getElem?_append_left (hfront ▸ hhi), List.getElem?_append_right (by simpa using hlo),
    List.getElem?_replicate, List.length_append, List.length_singleton, if_pos hz]

theorem padMessage_getElem?_lengthField (m : List Byte) {j : Nat} (h : j < 8) :
    (padMessage m)[padLen m.length - 8 + j]? = some (BitVec.ofNat 8 (m.length * 8 / 2 ^ (8 * (7 - j)))) := by
  rw [padMessage, ← padMessage_front_length, List.getElem?_append_right (Nat.le_add_right _ _),
    Nat.add_sub_cancel_left, enc64be_getElem? h]

/-- Settles O17: one lemma for each part of the padded message. -/
theorem paddedMessageLayout : Obligations.PaddedMessageLayout := by
  refine ⟨fun r => zeroCount_eq_mod, fun m _ => ⟨fun i => padMessage_getElem?_of_lt, padMessage_getElem?_length m,
    fun i => padMessage_getElem?_zero, fun j => padMessage_getElem?_lengthField m, fun i hi => ?_⟩⟩
  exact List.getElem?_eq_none (by rwa [padMessage_length])

end Sys2Proof.Machine
end

section
/-! SUPPORT. The word functions (R60 to R72): each by its bits or its value, then the laws that follow from these. -/

namespace Sys2Proof.Machine

/-! ### Rotation, shift and the sigma functions (R61 to R66) -/

/-- Bit `i` of a rotation comes from `i + n`, and below `n` from the other end of the Word. -/
theorem rotr32_getLsbD (x : Word) (n : Nat) {i : Nat} (hi : i < 32) :
    (rotr32 x n).getLsbD i = x.getLsbD ((i + n) % 32) := by
  rw [rotr32, BitVec.getLsbD_rotateRight]
  by_cases hin : i < 32 - n % 32
  · have hsrc : (i + n) % 32 = n % 32 + i := by omega
    simp [hin, hsrc]
  · have hsrc : (i + n) % 32 = i - (32 - n % 32) := by omega
    simp [hin, hi, hsrc]

/-- The bits a rotation moves down and those it moves to the top do not overlap, so their union is a sum. -/
theorem rotr32_eq_add (x : Word) {n : Nat} (hn : n < 32) : rotr32 x n = x >>> n + x <<< (32 - n) := by
  have hdisjoint : x >>> n &&& x <<< (32 - n) = 0#32 := by
    apply BitVec.eq_of_getLsbD_eq
    intro i hi
    by_cases hin : i < 32 - n
    · simp [hin]
    · have hout : 32 ≤ n + i := by omega
      simp [BitVec.getLsbD_of_ge x _ hout]
  rw [rotr32, BitVec.rotateRight_def, Nat.mod_eq_of_lt hn, BitVec.add_eq_or_of_and_eq_zero _ _ hdisjoint]

theorem rotr32_toNat (x : Word) {n : Nat} (hn : n < 32) :
    (rotr32 x n).toNat = (x.toNat / 2 ^ n + x.toNat * 2 ^ (32 - n)) % 2 ^ 32 := by
  rw [rotr32_eq_add x hn, BitVec.toNat_add, BitVec.toNat_ushiftRight, BitVec.toNat_shiftLeft, Nat.add_mod_mod,
    Nat.shiftRight_eq_div_pow, Nat.shiftLeft_eq]

theorem shr32_getLsbD (x : Word) (n i : Nat) :
    (shr32 x n).getLsbD i = (decide (i + n ≤ 31) && x.getLsbD (i + n)) := by
  rw [shr32, BitVec.getLsbD_ushiftRight, Nat.add_comm n i]
  by_cases h : i + n ≤ 31
  · simp [h]
  · have hout : 32 ≤ i + n := by omega
    simp [h, BitVec.getLsbD_of_ge x _ hout]

theorem shr32_toNat (x : Word) (n : Nat) : (shr32 x n).toNat = x.toNat / 2 ^ n := by
  rw [shr32, BitVec.toNat_ushiftRight, Nat.shiftRight_eq_div_pow]

/-- Settles O11: bits and values of the rotation and of the shift. -/
theorem rotateAndShiftMoveEachBit : Obligations.RotateAndShiftMoveEachBit := fun x n i _ hn hi =>
  ⟨rotr32_getLsbD x n hi, rotr32_toNat x (Nat.lt_succ_of_le hn), shr32_getLsbD x n i, shr32_toNat x n⟩

/-- Settles O12: exclusive or acts bit by bit, on the bits that `rotr32_getLsbD` and `shr32_getLsbD` give. -/
theorem sigmaFunctionsBitByBit : Obligations.SigmaFunctionsBitByBit := by
  intro x i hi
  refine ⟨?_, ?_, ?_, ?_⟩
  · simp only [ssig0, BitVec.getLsbD_xor, rotr32_getLsbD x _ hi, shr32_getLsbD]
  · simp only [ssig1, BitVec.getLsbD_xor, rotr32_getLsbD x _ hi, shr32_getLsbD]
  · simp only [bsig0, BitVec.getLsbD_xor, rotr32_getLsbD x _ hi]
  · simp only [bsig1, BitVec.getLsbD_xor, rotr32_getLsbD x _ hi]

/-! ### The byte packers (R70, R71) -/

theorem pack32be_toNat (a b c d : Byte) :
    (pack32be a b c d).toNat = a.toNat * 2 ^ 24 + b.toNat * 2 ^ 16 + c.toNat * 2 ^ 8 + d.toNat := by
  simp only [pack32be, toNat_fixed_append]
  ring

/-- Byte `j` of a Word, most significant first. -/
theorem unpack32be_getElem_toNat (w : Word) {j : Nat} (hj : j < 4) :
    (unpack32be w)[j].toNat = w.toNat / 2 ^ (24 - 8 * j) % 256 := by
  have hbyte (s : Nat) : (w.extractLsb' s 8).toNat = w.toNat / 2 ^ s % 256 := by
    rw [BitVec.extractLsb'_toNat, Nat.shiftRight_eq_div_pow]
  interval_cases j
  · exact hbyte 24
  · exact hbyte 16
  · exact hbyte 8
  · exact hbyte 0

theorem unpack32be_pack32be (a b c d : Byte) : unpack32be (pack32be a b c d) = #v[a, b, c, d] := by
  have ha := a.isLt
  have hb := b.isLt
  have hc := c.isLt
  have hd := d.isLt
  ext j hj : 1
  rw [← BitVec.toNat_inj, unpack32be_getElem_toNat _ hj, pack32be_toNat]
  interval_cases j <;> simp <;> omega

/-- A Word is the sum of its four bytes, each at its weight. -/
theorem pack32be_unpack32be (w : Word) :
    pack32be (unpack32be w)[0] (unpack32be w)[1] (unpack32be w)[2] (unpack32be w)[3] = w := by
  have hw := w.isLt
  apply BitVec.eq_of_toNat_eq
  simp only [pack32be_toNat, unpack32be_getElem_toNat]
  omega

/-- Settles O14: the two value lemmas and the two inverse laws that follow from them. -/
theorem packAndUnpackAreInverse : Obligations.PackAndUnpackAreInverse :=
  ⟨fun a b c d => ⟨pack32be_toNat a b c d, unpack32be_pack32be a b c d⟩,
    fun w => ⟨pack32be_unpack32be w, fun j => unpack32be_getElem_toNat w j.isLt⟩⟩

/-! ### The length field (R72) -/

theorem enc64be_getD_toNat (v : Nat) {j : Nat} (hj : j < 8) :
    ((enc64be v).getD j 0).toNat = v / 2 ^ (8 * (7 - j)) % 256 := by
  rw [List.getD_eq_getElem?_getD, enc64be_getElem? hj, Option.getD_some, BitVec.toNat_ofNat]

/-- One more byte below those read so far. -/
theorem div_eq_byte_step (v k : Nat) :
    256 * (v / 2 ^ (8 * (k + 1))) + v / 2 ^ (8 * k) % 256 = v / 2 ^ (8 * k) := by
  have hdiv : v / 2 ^ (8 * (k + 1)) = v / 2 ^ (8 * k) / 256 := by
    rw [Nat.div_div_eq_div_mul, Nat.mul_succ, Nat.pow_add]
  rw [hdiv, Nat.div_add_mod]

/-- The first `n` of the eight bytes, read most significant first, are `v` without its last `8 - n` bytes. -/
theorem foldl_enc64be_take {v : Nat} (hv : v < 2 ^ 64) {n : Nat} (hn : n ≤ 8) :
    ((enc64be v).take n).foldl (fun acc b => 256 * acc + b.toNat) 0 = v / 2 ^ (8 * (8 - n)) := by
  induction n with
  | zero => exact (Nat.div_eq_of_lt hv).symm
  | succ n ih =>
    have hread : 8 - n = 7 - n + 1 := by omega
    have hleft : 8 - (n + 1) = 7 - n := by omega
    rw [List.take_add_one, enc64be_getElem? hn, List.foldl_append, ih (Nat.le_of_succ_le hn), hread, hleft]
    exact div_eq_byte_step v (7 - n)

/-- Settles O15: the bytes by `enc64be_getD_toNat`, reading all eight of them back by `foldl_enc64be_take`. -/
theorem lengthFieldIsBigEndian : Obligations.LengthFieldIsBigEndian := by
  intro v hv
  have hread := foldl_enc64be_take hv (Nat.le_refl 8)
  rw [List.take_of_length_le (enc64be_length v).le, Nat.sub_self, Nat.mul_zero, Nat.pow_zero, Nat.div_one] at hread
  exact ⟨enc64be_length v, fun j => enc64be_getD_toNat v, hread⟩

/-! ### The adder and the boolean mixers (R60, R67, R68) -/

/-- Settles O10: Words under `add32` are the residues modulo 2^32. -/
theorem addIsModularAndUnordered : Obligations.AddIsModularAndUnordered := fun a b c =>
  ⟨BitVec.toNat_add a b, BitVec.add_comm a b, BitVec.add_assoc a b c⟩

theorem ch_getLsbD (x y z : Word) {i : Nat} (hi : i < 32) :
    (ch x y z).getLsbD i = if x.getLsbD i then y.getLsbD i else z.getLsbD i := by
  rw [ch, BitVec.getLsbD_xor, BitVec.getLsbD_and, BitVec.getLsbD_and, BitVec.getLsbD_not]
  cases x.getLsbD i with
  | true => simp
  | false => simp [hi]

theorem ma_getLsbD_iff (x y z : Word) (i : Nat) :
    (ma x y z).getLsbD i = true ↔ 2 ≤ (x.getLsbD i).toNat + (y.getLsbD i).toNat + (z.getLsbD i).toNat := by
  rw [ma, BitVec.getLsbD_xor, BitVec.getLsbD_xor, BitVec.getLsbD_and, BitVec.getLsbD_and, BitVec.getLsbD_and]
  generalize x.getLsbD i = p, y.getLsbD i = q, z.getLsbD i = r
  revert p q r
  decide

theorem ma_swap_first (x y z : Word) : ma x y z = ma y x z := by
  rw [ma, ma, BitVec.and_comm x y, BitVec.xor_assoc, BitVec.xor_comm (x &&& z), ← BitVec.xor_assoc]

theorem ma_swap_last (x y z : Word) : ma x y z = ma x z y := by
  rw [ma, ma, BitVec.and_comm y z, BitVec.xor_comm (x &&& y)]

/-- Settles O13: the two mixers bit by bit, and the two exchanges that generate every order of the operands of Ma. -/
theorem chooseAndMajorityBitByBit : Obligations.ChooseAndMajorityBitByBit := fun x y z i hi =>
  ⟨ch_getLsbD x y z hi, ma_getLsbD_iff x y z i, ma_swap_first x y z, ma_swap_last x y z⟩

end Sys2Proof.Machine
end

section
/-! SUPPORT. The preprocessor: the padded length with its consequences (R78), and the command PAD (R79). -/

namespace Sys2Proof.Machine

theorem padMessage_length_eq_sum (m : List Byte) :
    (padMessage m).length = m.length + 1 + zeroCount (m.length % 64) + 8 := by
  simp only [padMessage, List.length_append, List.length_singleton, List.length_replicate, enc64be_length]

/-- R78 (d), where the length field still fits the block in which the Message ends. -/
theorem padLen_of_mod_le {l : Nat} (h : l % 64 ≤ 55) : padLen l = 64 * (l / 64) + 64 := by
  unfold padLen
  omega

/-- R78 (d), where the length field goes into the block after it. -/
theorem padLen_of_le_mod {l : Nat} (h : 56 ≤ l % 64) : padLen l = 64 * (l / 64) + 128 := by
  unfold padLen
  omega

theorem padLen_bounds (l : Nat) : l + 9 ≤ padLen l ∧ padLen l ≤ l + 72 := by
  unfold padLen
  omega

theorem padLen_eq_add_nine_iff (l : Nat) : padLen l = l + 9 ↔ l % 64 = 55 := by
  rcases Nat.lt_or_ge 55 (l % 64) with h | h
  · rw [padLen_of_le_mod h]
    omega
  · rw [padLen_of_mod_le h]
    omega

theorem padLen_eq_add_seventyTwo_iff (l : Nat) : padLen l = l + 72 ↔ l % 64 = 56 := by
  rcases Nat.lt_or_ge 55 (l % 64) with h | h
  · rw [padLen_of_le_mod h]
    omega
  · rw [padLen_of_mod_le h]
    omega

theorem padLen_le_of_mod_eq_zero {l n : Nat} (hn : n % 64 = 0) (h : l + 9 ≤ n) : padLen l ≤ n := by
  unfold padLen
  omega

/-- Settles O16: each consequence is a fact about `padLen`, the equality cases by the two forms of (d). -/
theorem paddedLengthLaws : Obligations.PaddedLengthLaws := by
  intro m
  obtain ⟨hlo, hhi⟩ := padLen_bounds m.length
  have hblocks : 1 ≤ padLen m.length / 64 := Nat.div_pos (Nat.le_add_left _ _) (by decide)
  exact ⟨padMessage_length_eq_sum m, padMessage_length m, rfl, padLen_mod_64 _, hlo, padLen_eq_add_nine_iff _,
    fun _ => padLen_le_of_mod_eq_zero, hhi, padLen_eq_add_seventyTwo_iff _, padLen_of_mod_le, padLen_of_le_mod, hblocks⟩

theorem execPad_of_none {s : State} (h : s.status.err = none) : execPad s = padStage s := unlessError_of_none h _

theorem message_getElem? {s : State} {a : Nat} (h : a < s.len.toNat) : s.message[a]? = some (s.msgCell a) := by
  simp [State.message, h]

/-- The cells PAD writes, by what the padded message has there. -/
theorem padded_pmCell_eq_of_getElem? {s : State} {a : Nat} {b : Byte} (h : (padMessage s.message)[a]? = some b) :
    (padded s).pmCell a = b := by
  obtain ⟨ha, -⟩ := List.getElem?_eq_some_iff.1 h
  rw [padMessage_length, message_length] at ha
  exact Option.some.inj ((padded_pmCell_of_lt ha).trans h)

theorem padded_pmCell_message {s : State} {a : Nat} (h : a < s.len.toNat) : (padded s).pmCell a = s.msgCell a := by
  refine padded_pmCell_eq_of_getElem? ?_
  rw [padMessage_getElem?_of_lt (by rwa [message_length]), message_getElem? h]

theorem padded_pmCell_marker (s : State) : (padded s).pmCell s.len.toNat = 0x80#8 := by
  refine padded_pmCell_eq_of_getElem? ?_
  rw [← message_length, padMessage_getElem?_length]

theorem padded_pmCell_zero {s : State} {a : Nat} (hlo : s.len.toNat < a) (hhi : a < padLen s.len.toNat - 8) :
    (padded s).pmCell a = 0x00#8 := by
  rw [← message_length] at hlo hhi
  exact padded_pmCell_eq_of_getElem? (padMessage_getElem?_zero hlo hhi)

theorem padded_pmCell_lengthField (s : State) {j : Nat} (h : j < 8) :
    (padded s).pmCell (padLen s.len.toNat - 8 + j) = BitVec.ofNat 8 (s.len.toNat * 8 / 2 ^ (8 * (7 - j))) := by
  rw [← message_length]
  exact padded_pmCell_eq_of_getElem? (padMessage_getElem?_lengthField s.message h)

/-- PAD keeps its input, so a second write has the same bytes. -/
theorem padded_padded (s : State) : padded (padded s) = padded s := by
  have hm : (padded s).message = s.message := message_congr (padded_len s) fun _ _ => rfl
  rw [padded, hm, padded_pm, Memory.write_write]
  rfl

theorem execPad_idempotent {s t : State} (h : execPad s = .next t) : execPad t = .next t := by
  rcases unlessError_eq_next h with ⟨he, rfl⟩ | ⟨he, hpad⟩
  · exact unlessError_of_ne_none (s := clearDv s) he padStage
  · obtain ⟨hlen, -, rfl⟩ := padStage_next hpad
    rw [execPad_of_none (s := padded s) he, padStage_of_le (s := padded s) hlen, padded_padded]

/-- Settles O18: PAD answers `padded s`, whose cells of PM are read off the padded message part by part. -/
theorem padWritesThePaddedMessage : Obligations.PadWritesThePaddedMessage := by
  refine ⟨rfl, fun s he hlen => ⟨padded s, (execPad_of_none he).trans (padStage_of_le hlen), padded_plen_toNat hlen,
    padLen_le_pmMax hlen, fun a => padded_pmCell_message, padded_pmCell_marker s, fun a => padded_pmCell_zero,
    fun j => padded_pmCell_lengthField s, fun a => padded_pmCell_of_le, fun _ => rfl, rfl, ?_,
    rfl, rfl, rfl, rfl, rfl, rfl, rfl, rfl, rfl, rfl, rfl⟩, fun s he => unlessError_of_ne_none he padStage,
    fun s t => execPad_idempotent⟩
  simp [he]

end Sys2Proof.Machine
end

section
/-! SUPPORT. The chunker: the Blocks of a byte sequence (R80), and the command CHUNK, once and repeated after PAD
(R82). -/

namespace Sys2Proof.Machine

/-! ### The chunking function -/

theorem chunkBytes_length (p : List Byte) : (chunkBytes p).length = p.length / 64 := by simp [chunkBytes]

theorem lt_length_of_block {p : List Byte} {j k : Nat} (hj : j < p.length / 64) (hk : k < 64) :
    64 * j + k < p.length := by omega

theorem chunkBytes_getElem? {p : List Byte} {j : Nat} (hj : j < p.length / 64) :
    (chunkBytes p)[j]? = some (Vector.ofFn fun k : Fin 64 => p.getD (64 * j + k) 0) := by
  simp [chunkBytes, hj]

/-- Block `j` as a list is the slice of 64 bytes from `64 * j` on. -/
theorem toList_block {p : List Byte} {j : Nat} (hj : j < p.length / 64) :
    (Vector.ofFn fun k : Fin 64 => p.getD (64 * j + k) 0).toList = (p.drop (64 * j)).take 64 := by
  refine List.ext_getElem (by simp; omega) fun k hk _ => ?_
  have hlt : 64 * j + k < p.length := lt_length_of_block hj (by simpa using hk)
  simp [hlt]

/-- The first `n` slices of 64 elements, one after another, are the first `64 * n` elements. -/
theorem flatten_slices {α : Type} (p : List α) (n : Nat) :
    ((List.range n).map fun j => (p.drop (64 * j)).take 64).flatten = p.take (64 * n) := by
  induction n with
  | zero => rfl
  | succ n ih =>
    rw [List.range_succ, List.map_append, List.flatten_append, ih, Nat.mul_succ, List.take_add]
    simp

theorem flatten_chunkBytes (p : List Byte) :
    ((chunkBytes p).map Vector.toList).flatten = p.take (64 * (p.length / 64)) := by
  rw [← flatten_slices, chunkBytes, List.map_map]
  refine congrArg List.flatten (List.map_congr_left fun j hj => ?_)
  rw [Function.comp_apply, toList_block (List.mem_range.1 hj)]

/-- Settles O19: each Block is a slice of 64 bytes, and the slices make up the whole where no byte is left over. -/
theorem chunkingPartitionsTheBytes : Obligations.ChunkingPartitionsTheBytes := by
  intro p hp
  refine ⟨chunkBytes_length p, fun j k hj => ?_, ?_⟩
  · have hlt := lt_length_of_block hj k.isLt
    simp [chunkBytes_getElem? hj, hlt]
  · rw [flatten_chunkBytes, Nat.mul_div_cancel' (Nat.dvd_of_mod_eq_zero hp), List.take_length]

/-! ### The command CHUNK -/

theorem execChunk_of_none {s : State} (h : s.status.err = none) : execChunk s = chunkStage s := unlessError_of_none h _

/-- Where either check of R82 fails, CHUNK is the error entry. -/
theorem execChunk_raises {s : State} (he : s.status.err = none)
    (h : s.plen.toNat % 64 ≠ 0 ∨ 64 * (s.bi.toNat + 1) > s.plen.toNat) :
    execChunk s = .next (raise .internalInvariantViolation s) := by
  rw [execChunk_of_none he, chunkStage]
  split_ifs with hmis hend
  · rfl
  · rfl
  · exact absurd h (not_or.2 ⟨hmis, hend⟩)

/-- Where both checks of R82 pass, the Block lies within PM and CHUNK delivers it. -/
theorem execChunk_delivers {s : State} (he : s.status.err = none) (hlegal : s.plen.toNat ≤ s.cfg.pmMax)
    (hal : s.plen.toNat % 64 = 0) (hin : 64 * (s.bi.toNat + 1) ≤ s.plen.toNat) :
    execChunk s = .next (delivered s) := by
  rw [execChunk_of_none he, chunkStage_of_no_error hal hin, deliverBlock, withinBuffer_of_le (by omega)]

theorem delivered_blk_getElem (s : State) (k : Fin 64) :
    (delivered s).blk[k] = s.pmCell (64 * s.bi.toNat + k) := by
  rw [delivered_blk, State.pmBlock]
  simp

/-- BI does not wrap: PLEN is a 64-bit value, so BI is below 2^58 where a Block is left. -/
theorem delivered_bi_toNat {s : State} (hin : 64 * (s.bi.toNat + 1) ≤ s.plen.toNat) :
    (delivered s).bi.toNat = s.bi.toNat + 1 := by
  have hlt := s.plen.isLt
  rw [delivered_bi]
  bv_omega

/-- `n` times CHUNK, while Blocks are left, deliver `n` Blocks. -/
theorem runCommands_replicate_chunk {n : Nat} {s : State} (he : s.status.err = none)
    (hlegal : s.plen.toNat ≤ s.cfg.pmMax) (hal : s.plen.toNat % 64 = 0) (hin : 64 * (s.bi.toNat + n) ≤ s.plen.toNat) :
    ∃ t, runCommands (List.replicate n .chunk) s = .next t ∧ t.status.err = none ∧ t.bi.toNat = s.bi.toNat + n ∧
      t.plen = s.plen := by
  induction n generalizing s with
  | zero => exact ⟨s, rfl, he, rfl, rfl⟩
  | succ n ih =>
    have hfirst : exec .chunk s = .next (delivered s) := execChunk_delivers he hlegal hal (by omega)
    have hbi : (delivered s).bi.toNat = s.bi.toNat + 1 := delivered_bi_toNat (by omega)
    obtain ⟨t, hrun, hterr, htbi, htplen⟩ := ih (s := delivered s) he hlegal hal (by rw [hbi, delivered_plen]; omega)
    refine ⟨t, ?_, hterr, by omega, htplen⟩
    rw [List.replicate_succ, runCommands, hfirst, andThen_next, hrun]

/-- PAD, then CHUNK `n` times, where the padded message has at least `n` Blocks. -/
theorem runCommands_pad_chunks {n : Nat} {s : State} (he : s.status.err = none) (hlen : s.len.toNat ≤ s.cfg.msgMax)
    (hbi : s.bi = 0) (hn : n ≤ padLen s.len.toNat / 64) :
    ∃ t, runCommands (.pad :: List.replicate n .chunk) s = .next t ∧ t.status.err = none ∧ t.bi.toNat = n ∧
      t.plen.toNat = padLen s.len.toNat := by
  have hpad : exec .pad s = .next (padded s) := (execPad_of_none he).trans (padStage_of_le hlen)
  have hplen := padded_plen_toNat hlen
  have hpbi : (padded s).bi.toNat = 0 := by rw [padded_bi, hbi]; rfl
  obtain ⟨t, hrun, hterr, htbi, htplen⟩ := runCommands_replicate_chunk (n := n) (s := padded s) he
    (hplen ▸ padLen_le_pmMax hlen) (hplen ▸ padLen_mod_64 _) (by omega)
  refine ⟨t, ?_, hterr, by omega, by rw [htplen, hplen]⟩
  rw [runCommands, hpad, andThen_next, hrun]

/-- One CHUNK more than the padded message has Blocks records the error and keeps BI. -/
theorem runCommands_pad_chunks_succ {s : State} (he : s.status.err = none) (hlen : s.len.toNat ≤ s.cfg.msgMax)
    (hbi : s.bi = 0) :
    ∃ t, runCommands (.pad :: List.replicate (padLen s.len.toNat / 64 + 1) .chunk) s = .next t ∧
      t.status.err = some .internalInvariantViolation ∧ t.bi.toNat = padLen s.len.toNat / 64 := by
  obtain ⟨t, hrun, hterr, htbi, htplen⟩ := runCommands_pad_chunks he hlen hbi le_rfl
  have hlast : exec .chunk t = .next (raise .internalInvariantViolation t) :=
    execChunk_raises hterr (.inr (by omega))
  refine ⟨raise .internalInvariantViolation t, ?_, rfl, htbi⟩
  rw [List.replicate_succ', ← List.cons_append, runCommands_append, hrun, andThen_next, runCommands, hlast]
  rfl

/-- Settles O20: CHUNK is ignored, raises or delivers by its two checks, and the checks pass once for each Block of the
padded message. -/
theorem chunkDeliversOrReports : Obligations.ChunkDeliversOrReports := by
  refine ⟨rfl, fun s he => exec_of_error nofun nofun he, fun s he hmis => execChunk_raises he (.inl hmis),
    fun s he _ hend => execChunk_raises he (.inr hend), fun s he hlegal hal hin => ?_, fun s he hlen hbi => ⟨?_, ?_⟩⟩
  · refine ⟨delivered s, execChunk_delivers he hlegal hal hin, delivered_blk_getElem s, delivered_bi_toNat hin, ?_,
      fun _ => rfl, fun _ => rfl, rfl, rfl, rfl, rfl, rfl, rfl, rfl, rfl, rfl, rfl, rfl, rfl⟩
    simp [he]
  · intro n hn
    obtain ⟨t, hrun, hterr, htbi, -⟩ := runCommands_pad_chunks he hlen hbi hn
    exact ⟨t, hrun, hterr, htbi⟩
  · exact runCommands_pad_chunks_succ he hlen hbi

end Sys2Proof.Machine
end

section
/-! SUPPORT. The message scheduler: the Words of the schedule (R86, R87), and the command SCHED (R88). -/

namespace Sys2Proof.Machine

/-! ### The schedule function -/

/-- The right-hand side of R87 at position `i` of the list `w`. -/
def recurrenceWord (w : List Word) (i : Nat) : Word :=
  add32 (add32 (add32 (ssig1 (w.getD (i - 2) 0)) (w.getD (i - 7) 0)) (ssig0 (w.getD (i - 15) 0))) (w.getD (i - 16) 0)

theorem nextWord_eq_recurrenceWord (w : List Word) : nextWord w = recurrenceWord w w.length := rfl

/-- R87 looks at most 16 Words back, so lists that agree below `i` have the same Word at `i`. -/
theorem recurrenceWord_congr {v w : List Word} {i : Nat} (hi : 0 < i) (h : ∀ j < i, v.getD j 0 = w.getD j 0) :
    recurrenceWord v i = recurrenceWord w i := by
  simp (disch := omega) only [recurrenceWord, h]

theorem expandWords_length (n : Nat) (w : List Word) : (expandWords n w).length = w.length + n := by
  induction n generalizing w with
  | zero => rfl
  | succ n ih =>
    rw [expandWords, ih, List.length_append, List.length_singleton]
    omega

/-- Further Words leave the Words before them as they are. -/
theorem expandWords_getD_of_lt (n : Nat) {w : List Word} {i : Nat} (hi : i < w.length) :
    (expandWords n w).getD i 0 = w.getD i 0 := by
  induction n generalizing w with
  | zero => rfl
  | succ n ih =>
    have hlt : i < (w ++ [nextWord w]).length := by simp; omega
    rw [expandWords, ih hlt, List.getD_append _ _ _ _ hi]

/-- Every further Word obeys R87, read in the finished list. -/
theorem expandWords_getD_of_le {n : Nat} {w : List Word} {i : Nat} (hpos : 0 < w.length) (hlo : w.length ≤ i)
    (hhi : i < w.length + n) : (expandWords n w).getD i 0 = recurrenceWord (expandWords n w) i := by
  induction n generalizing w with
  | zero => omega
  | succ n ih =>
    have hlen : (w ++ [nextWord w]).length = w.length + 1 := List.length_append
    rcases hlo.eq_or_lt with rfl | hgt
    · calc (expandWords n (w ++ [nextWord w])).getD w.length 0
          = (w ++ [nextWord w]).getD w.length 0 := expandWords_getD_of_lt n (by omega)
        _ = recurrenceWord w w.length := by simp [nextWord_eq_recurrenceWord]
        _ = recurrenceWord (expandWords (n + 1) w) w.length :=
          recurrenceWord_congr hpos fun j hj => (expandWords_getD_of_lt (n + 1) hj).symm
    · exact ih (by omega) (by omega) (by omega)

theorem vector_toList_getD_of_lt {α : Type} {n i : Nat} (xs : Vector α n) (hi : i < n) (d : α) :
    xs.toList.getD i d = xs[i] := by
  rw [List.getD_eq_getElem _ _ (by rwa [Vector.length_toList]), Vector.getElem_toList]

theorem firstWords_length (b : Vector Byte 64) : (firstWords b).length = 16 := List.length_ofFn

theorem schedule_toList (b : Vector Byte 64) : (schedule b).toList = expandWords 48 (firstWords b) := by
  have hlen : (expandWords 48 (firstWords b)).length = 64 := by rw [expandWords_length, firstWords_length]
  refine List.ext_getElem (by rw [hlen, Vector.length_toList]) fun i _ hi => ?_
  simp [schedule, hi]

/-- R86: Words 0 to 15 pack the Block's four-byte groups. -/
theorem schedule_getD_of_lt (b : Vector Byte 64) {i : Nat} (hi : i < 16) :
    (schedule b).toList.getD i 0 =
      pack32be (b.toList.getD (4 * i) 0) (b.toList.getD (4 * i + 1) 0)
        (b.toList.getD (4 * i + 2) 0) (b.toList.getD (4 * i + 3) 0) := by
  rw [schedule_toList, expandWords_getD_of_lt 48 (by rwa [firstWords_length]),
    List.getD_eq_getElem _ _ (by rwa [firstWords_length])]
  simp (disch := omega) only [firstWords, List.getElem_ofFn, vector_toList_getD_of_lt]

/-- R87: Words 16 to 63 obey the recurrence. -/
theorem schedule_getD_of_le (b : Vector Byte 64) {i : Nat} (hlo : 16 ≤ i) (hhi : i < 64) :
    (schedule b).toList.getD i 0 = recurrenceWord (schedule b).toList i := by
  have hlen := firstWords_length b
  rw [schedule_toList]
  exact expandWords_getD_of_le (by omega) (by omega) (by omega)

/-- Settles O21: the first 16 Words have the value of four packed bytes, and the others are sums, `add32` being the
addition of Words. -/
theorem scheduleWordsOfABlock : Obligations.ScheduleWordsOfABlock := by
  refine fun b => ⟨fun i => ?_, fun i => schedule_getD_of_le b⟩
  rw [schedule_getD_of_lt b i.isLt, pack32be_toNat]

/-! ### The command SCHED -/

/-- SCHED overwrites W whole. -/
theorem execSched_set_w {s : State} (w : Vector Word 64) (he : s.status.err = none) :
    execSched { s with w := w } = execSched s := by
  rw [execSched_of_none he, execSched_of_none (s := { s with w := w }) he]
  rfl

/-- SCHED keeps BLK, so a second run writes the same schedule. -/
theorem execSched_idempotent {s t : State} (h : execSched s = .next t) : execSched t = .next t := by
  rcases unlessError_eq_next (run := fun s => .next (schedStage s)) h with ⟨he, rfl⟩ | ⟨he, hrun⟩
  · exact unlessError_of_ne_none (s := clearDv s) he _
  · cases hrun
    exact execSched_of_none (s := schedStage s) he

/-- Settles O22: SCHED answers `schedStage s`, whose W is the schedule of BLK. -/
theorem schedExpandsTheBlock : Obligations.SchedExpandsTheBlock := by
  refine ⟨rfl, fun s he => ?_, fun s w => execSched_set_w w, fun s he => exec_of_error nofun nofun he,
    fun s t => execSched_idempotent⟩
  refine ⟨schedStage s, execSched_of_none he, fun i => schedule_getD_of_lt s.blk, fun i => schedule_getD_of_le s.blk,
    rfl, ?_, fun _ => rfl, fun _ => rfl, rfl, rfl, rfl, rfl, rfl, rfl, rfl, rfl, rfl, rfl, rfl, rfl, rfl⟩
  simp [he]

end Sys2Proof.Machine
end

section
/-! SUPPORT. The compressor: one round (R91), the sequence of rounds (R90, R92), the accumulation (R93), and the command
COMPRESS (R94). -/

namespace Sys2Proof.Machine

/-! ### Rounds -/

/-- Settles O23: `add32` is the addition of Words, and the model groups the sums as the statement does. -/
theorem roundComputesTwoWordsAndMovesSix : Obligations.RoundComputesTwoWordsAndMovesSix := fun _ _ _ => rfl

/-- The working Words after the first `n` rounds of R92. -/
def wordsAfterRounds (h : Vector Word 8) (w : Vector Word 64) (n : Nat) : Vector Word 8 :=
  ((List.finRange 64).take n).foldl (fun t i => roundStep t w[i] romK[i]) h

theorem wordsAfterRounds_zero (h : Vector Word 8) (w : Vector Word 64) : wordsAfterRounds h w 0 = h := rfl

theorem wordsAfterRounds_succ (h : Vector Word 8) (w : Vector Word 64) (i : Fin 64) :
    wordsAfterRounds h w (i + 1) = roundStep (wordsAfterRounds h w i) w[i] romK[i] := by
  have htake : (List.finRange 64).take (i + 1) = (List.finRange 64).take i ++ [i] := by
    rw [List.take_add_one]
    simp
  rw [wordsAfterRounds, htake, List.foldl_append]
  rfl

theorem workingWords_eq_wordsAfterRounds (h : Vector Word 8) (w : Vector Word 64) :
    workingWords h w = wordsAfterRounds h w 64 := by
  have hall : (List.finRange 64).take 64 = List.finRange 64 := List.take_of_length_le (by simp)
  rw [workingWords, wordsAfterRounds, hall]

/-- R93, one Word of the HashState. -/
theorem accumulate_getElem (h t : Vector Word 8) (k : Fin 8) : (accumulate h t)[k] = add32 h[k] t[k] := by
  simp [accumulate]

/-! ### The command COMPRESS -/

/-- Compressing the zero schedule a second time, from the HashState the first time left, gives another HashState. -/
theorem compressState_twice_ne :
    compressState (compressState romHinit (.replicate 64 0)) (.replicate 64 0) ≠
      compressState romHinit (.replicate 64 0) := by decide +kernel

/-- COMPRESS is not idempotent: it accumulates again, here from HINIT under a schedule of zeros. -/
theorem execCompress_not_idempotent :
    ∃ s t u : State, s.status.err = none ∧ exec .compress s = .next t ∧ exec .compress t = .next u ∧
      u.w = s.w ∧ u.h ≠ t.h :=
  ⟨{ State.reset with h := romHinit, w := .replicate 64 0 }, _, _, rfl, execCompress_of_none rfl,
    execCompress_of_none rfl, rfl, compressState_twice_ne⟩

/-- Settles O24: COMPRESS answers `compressStage s`, whose T is the end of the sequence `wordsAfterRounds`. -/
theorem compressRunsSixtyFourRounds : Obligations.CompressRunsSixtyFourRounds := by
  refine ⟨rfl, fun s he => ?_, fun s he => exec_of_error nofun nofun he, execCompress_not_idempotent⟩
  have hrounds : ∃ r : Nat → Vector Word 8, r 0 = s.h ∧
      (∀ i : Fin 64, r (i.val + 1) = roundStep (r i.val) s.w[i] romK[i]) ∧ (compressStage s).t = r 64 :=
    ⟨wordsAfterRounds s.h s.w, wordsAfterRounds_zero s.h s.w, wordsAfterRounds_succ s.h s.w,
      workingWords_eq_wordsAfterRounds s.h s.w⟩
  refine ⟨compressStage s, execCompress_of_none he, hrounds, accumulate_getElem s.h _, rfl, ?_,
    fun _ => rfl, fun _ => rfl, rfl, rfl, rfl, rfl, rfl, rfl, rfl, rfl, rfl, rfl, rfl, rfl⟩
  simp [he]

end Sys2Proof.Machine
end

section
/-! SUPPORT. The digest serializer: the bytes of the Digest and their injectivity (R100), and the command DIGEST
(R101). -/

namespace Sys2Proof.Machine

/-! ### The serialization -/

/-- R100: byte `4*k + j` is byte `j` of Word `k`. -/
theorem serialize_getElem (h : Vector Word 8) {k j : Nat} (hk : k < 8) (hj : j < 4) :
    (serialize h)[4 * k + j] = (unpack32be h[k])[j] := by
  have hword : (4 * k + j) / 4 = k := by omega
  have hbyte : (4 * k + j) % 4 = j := by omega
  simp only [serialize, Vector.getElem_ofFn, hword, hbyte]

/-- R100: the value of byte `4*k + j`. -/
theorem serialize_getD_toNat (h : Vector Word 8) (k : Fin 8) (j : Fin 4) :
    ((serialize h).toList.getD (4 * k.val + j.val) 0).toNat = h[k].toNat / 2 ^ (24 - 8 * j.val) % 256 := by
  rw [vector_toList_getD_of_lt _ (by omega), serialize_getElem h k.isLt j.isLt, unpack32be_getElem_toNat _ j.isLt]
  rfl

/-- A Word is determined by its four bytes. -/
theorem unpack32be_injective : Function.Injective unpack32be := by
  intro v w hbytes
  rw [← pack32be_unpack32be v, hbytes, pack32be_unpack32be]

/-- Equal Digests have equal bytes, so equal Words. -/
theorem serialize_injective : Function.Injective serialize := by
  intro h h' hdig
  ext k hk : 1
  apply unpack32be_injective
  ext j hj : 1
  rw [← serialize_getElem h hk hj, ← serialize_getElem h' hk hj, hdig]

/-! ### The command DIGEST -/

/-- A gated stage that keeps ERR and repeats itself makes an idempotent command. -/
theorem unlessError_next_idempotent {f : State → State} (herr : ∀ s, (f s).status.err = s.status.err)
    (hf : ∀ s, f (f s) = f s) {s t : State} (h : unlessError s (fun s => .next (f s)) = .next t) :
    unlessError t (fun s => .next (f s)) = .next t := by
  rcases unlessError_eq_next h with ⟨he, rfl⟩ | ⟨he, hrun⟩
  · exact unlessError_of_ne_none (s := clearDv s) he _
  · cases hrun
    rw [unlessError_of_none ((herr s).trans he), hf]

/-- DIGEST keeps H, so a second run writes the same Digest. -/
theorem execDigest_idempotent {s t : State} (h : execDigest s = .next t) : execDigest t = .next t :=
  unlessError_next_idempotent (f := digestStage) (fun _ => rfl) (fun _ => rfl) h

/-- Settles O25: DIGEST answers `digestStage s`, whose DIG is the serialization of H. -/
theorem digestSerialisesTheHashState : Obligations.DigestSerialisesTheHashState := by
  refine ⟨rfl, fun s he => ?_, fun s he => exec_of_error nofun nofun he, fun s t => execDigest_idempotent,
    fun h h' hdig => serialize_injective hdig⟩
  refine ⟨digestStage s, execDigest_of_none he, serialize_getD_toNat s.h, rfl, ?_,
    fun _ => rfl, fun _ => rfl, rfl, rfl, rfl, rfl, rfl, rfl, rfl, rfl, rfl, rfl, rfl, rfl, rfl⟩
  simp [he]

end Sys2Proof.Machine
end

section
/-! SUPPORT. The Hasher sequencer: the reserved words (R107), INIT (R104), and the stage sequence HASH stands for
(R106). -/

namespace Sys2Proof.Machine

/-! ### The reserved words -/

/-- Settles O27: the words other than 1 to 7 are reserved, and every reserved instruction is `reservedWord`. -/
theorem reservedWordsRaiseOrAreIgnored : Obligations.ReservedWordsRaiseOrAreIgnored := by
  refine ⟨fun c hc => ?_, fun i s hi => ?_⟩
  · rw [isReserved_iff_encodeCommand, encodeCommand_decodeCommand]
    exact hc
  · rw [exec_of_isReserved s hi]
    exact ⟨reservedWord_of_none, fun he => unlessError_of_ne_none he _⟩

/-! ### The command INIT -/

theorem execInit_idempotent {s t : State} (h : execInit s = .next t) : execInit t = .next t := by
  cases h
  rfl

/-- INIT and PAD write different registers, and neither writes one the other reads. -/
theorem padded_initStage (s : State) : padded (initStage s) = initStage (padded s) := rfl

/-- INIT passes through the body of PAD, the fault of a LEN beyond MSG included. -/
theorem padStage_initStage (s : State) :
    padStage (initStage s) = andThen (padStage s) fun u => .next (initStage u) := by
  by_cases hlen : s.len.toNat ≤ s.cfg.msgMax
  · rw [padStage_of_le hlen, padStage_of_le (s := initStage s) hlen, andThen_next, padded_initStage]
  · rw [padStage_of_lt (Nat.not_le.1 hlen), padStage_of_lt (s := initStage s) (Nat.not_le.1 hlen), andThen_fault]

theorem runCommands_singleton (i : Instr) (s : State) : runCommands [i] s = exec i s := by
  rw [runCommands]
  cases exec i s <;> rfl

/-- INIT then PAD runs PAD's body whatever error was recorded: INIT returns from it (R119). -/
theorem runCommands_init_pad (s : State) : runCommands [.init, .pad] s = padStage (initStage s) :=
  (runCommands_singleton .pad (initStage s)).trans (execPad_of_none (s := initStage s) rfl)

theorem runCommands_pad_init {s : State} (he : s.status.err = none) :
    runCommands [.pad, .init] s = andThen (padStage s) fun u => .next (initStage u) := by
  have hpad : exec .pad s = padStage s := execPad_of_none he
  rw [runCommands, hpad]
  rfl

/-- Settles O26: INIT answers `initStage s`, which passes through PAD. -/
theorem initBeginsACall : Obligations.InitBeginsACall := by
  refine ⟨rfl, fun s => ?_, fun s t => execInit_idempotent, fun s he => ?_⟩
  · exact ⟨initStage s, rfl, fun _ => rfl, rfl, rfl, fun _ => rfl, fun _ => rfl, rfl, rfl, rfl, rfl, rfl, rfl, rfl,
      rfl, rfl, rfl, rfl, rfl⟩
  · rw [runCommands_init_pad, runCommands_pad_init he, padStage_initStage]

/-! ### HASH and the stage sequence -/

/-- CHUNK, SCHED, COMPRESS are one iteration of the loop of HASH where CHUNK delivers a Block. -/
theorem runCommands_chunk_sched_compress {s : State} (he : s.status.err = none) (hlegal : s.plen.toNat ≤ s.cfg.pmMax)
    (hal : s.plen.toNat % 64 = 0) (hin : 64 * (s.bi.toNat + 1) ≤ s.plen.toNat) :
    runCommands [.chunk, .sched, .compress] s = .next (blockHashed s) := by
  have hchunk : exec .chunk s = .next (delivered s) := execChunk_delivers he hlegal hal hin
  have hsched : exec .sched (delivered s) = .next (schedStage (delivered s)) := execSched_of_none he
  have hcompress : exec .compress (schedStage (delivered s)) = .next (blockHashed s) := execCompress_of_none he
  rw [runCommands, hchunk, andThen_next, runCommands, hsched, andThen_next, runCommands_singleton, hcompress]

/-- `n` times (CHUNK, SCHED, COMPRESS), while Blocks are left, are `n` iterations of the loop of HASH. -/
theorem runCommands_blocks {n : Nat} {s : State} (he : s.status.err = none) (hlegal : s.plen.toNat ≤ s.cfg.pmMax)
    (hal : s.plen.toNat % 64 = 0) (hin : 64 * (s.bi.toNat + n) ≤ s.plen.toNat) :
    runCommands (List.replicate n [.chunk, .sched, .compress]).flatten s = .next (blockHashed^[n] s) := by
  induction n generalizing s with
  | zero => rfl
  | succ n ih =>
    have hlt := s.plen.isLt
    have hbi : (blockHashed s).bi.toNat = s.bi.toNat + 1 := blockHashed_bi_toNat (by omega)
    have hrest : 64 * ((blockHashed s).bi.toNat + n) ≤ s.plen.toNat := by omega
    rw [List.replicate_succ, List.flatten_cons, runCommands_append,
      runCommands_chunk_sched_compress he hlegal hal (by omega), andThen_next, Function.iterate_succ_apply]
    exact ih (s := blockHashed s) he hlegal hal hrest

/-- After INIT and PAD the Blocks of the padded message end the loop where HASH ends it. -/
theorem runCommands_blocks_padded {s : State} (hlen : s.len.toNat ≤ s.cfg.msgMax) :
    runCommands (List.replicate (padLen s.len.toNat / 64) [.chunk, .sched, .compress]).flatten (padded (initStage s)) =
      .next (hashLoopEnd s) := by
  have hplen : (padded (initStage s)).plen.toNat = padLen s.len.toNat := padded_plen_toNat (s := initStage s) hlen
  have hbi := padded_initStage_bi_toNat s
  exact runCommands_blocks rfl (hplen ▸ padLen_le_pmMax hlen) (hplen ▸ padLen_mod_64 _) (by omega)

/-- The stage sequence of R106 on a legal message, for as many Blocks as it has. -/
theorem runCommands_stageSequence {s : State} (hlen : s.len.toNat ≤ s.cfg.msgMax) :
    runCommands (stageSequence (padLen s.len.toNat / 64)) s = .next (digestStage (hashLoopEnd s)) := by
  obtain ⟨-, -, herr, -⟩ := hashLoopEnd_frame hlen
  have hdigest : exec .digest (hashLoopEnd s) = .next (digestStage (hashLoopEnd s)) := execDigest_of_none herr
  rw [stageSequence, runCommands_append, runCommands_append, runCommands_init_pad,
    padStage_of_le (s := initStage s) hlen, andThen_next, runCommands_blocks_padded hlen, andThen_next,
    runCommands_singleton, hdigest]

/-- Settles O29: HASH and the stage sequence both end with DIGEST on `hashLoopEnd s`. -/
theorem hashEqualsTheStageSequence : Obligations.HashEqualsTheStageSequence := by
  intro s hlen haccept
  have hr : ¬ s.rejects := by
    rintro ⟨hzero, hreject⟩
    simp [hzero, hreject] at haccept
  exact ⟨_, execHash_eq hlen hr, runCommands_stageSequence hlen⟩

end Sys2Proof.Machine
end

section
/-! SUPPORT. Errors (R113 to R121): which command raises which error and that it writes nothing else, what stays
available while one is recorded, and that every other command completes without one. -/

namespace Sys2Proof.Machine

/-! ### The causes of an error -/

/-- The command raises this error in this state: R114's one cause, and R115's three where no error is recorded. -/
def Raises (i : Instr) (s : State) : ErrorKind → Prop
  | .invalidInput => i = .hash ∧ s.rejects
  | .internalInvariantViolation => s.status.err = none ∧
      ((i = .chunk ∧ s.plen.toNat % 64 ≠ 0) ∨ (i = .chunk ∧ 64 * (s.bi.toNat + 1) > s.plen.toNat) ∨
        i.isReserved = true)

theorem exec_of_raises {i : Instr} {s : State} {e : ErrorKind} (h : Raises i s e) : exec i s = .next (raise e s) := by
  cases e with
  | invalidInput =>
    obtain ⟨rfl, hr⟩ := h
    exact execHash_of_rejects hr
  | internalInvariantViolation =>
    obtain ⟨he, ⟨rfl, hmis⟩ | ⟨rfl, hend⟩ | hres⟩ := h
    · exact execChunk_raises he (.inl hmis)
    · exact execChunk_raises he (.inr hend)
    · exact (exec_of_isReserved s hres).trans (reservedWord_of_none he)

theorem clearDv_eq_raise {s : State} {e : ErrorKind} (h : s.status.err = some e) : clearDv s = raise e s := by
  simp only [clearDv, raise, h]

/-- A command that leaves an error was ignored, with that error recorded before, or raised it; either way the state is
the one the error entry leaves (R117). -/
theorem exec_leaves_error {i : Instr} {s t : State} {e : ErrorKind} (h : exec i s = .next t)
    (he : t.status.err = some e) :
    t = raise e s ∧ ((i ≠ .init ∧ i ≠ .hash ∧ s.status.err = some e) ∨ Raises i s e) := by
  rcases exec_next h with ⟨hinit, hhash, -, rfl⟩ | ⟨-, rfl⟩ | ⟨-, hnone, hpad⟩ | ⟨rfl, hnone, hchunk⟩ |
    ⟨-, hnone, rfl⟩ | ⟨-, hnone, rfl⟩ | ⟨-, hnone, rfl⟩ | ⟨rfl, hhash⟩ | ⟨hres, hnone, rfl⟩
  · exact ⟨clearDv_eq_raise he, .inl ⟨hinit, hhash, he⟩⟩
  · cases he
  · obtain ⟨-, -, rfl⟩ := padStage_next hpad
    cases hnone.symm.trans he
  · rcases chunkStage_next hchunk with ⟨hcause, rfl⟩ | ⟨-, -, hd⟩
    · cases he
      exact ⟨rfl, .inr ⟨hnone, hcause.imp (⟨rfl, ·⟩) (.inl ⟨rfl, ·⟩)⟩⟩
    · obtain ⟨-, rfl⟩ := deliverBlock_next hd
      cases hnone.symm.trans he
  · cases hnone.symm.trans he
  · cases hnone.symm.trans he
  · cases hnone.symm.trans he
  · rcases execHash_next_cases hhash with ⟨hr, rfl⟩ | ⟨-, hlen, rfl⟩
    · cases he
      exact ⟨rfl, .inr ⟨rfl, hr⟩⟩
    · obtain ⟨-, -, hloop, -⟩ := hashLoopEnd_frame hlen
      cases hloop.symm.trans he
  · cases he
    exact ⟨rfl, .inr ⟨hnone, .inr (.inr hres)⟩⟩

/-- Settles O31: a command that leaves an error leaves the state of the error entry. -/
theorem errorsArePrecise : Obligations.ErrorsArePrecise := by
  intro i s t e h he
  obtain ⟨rfl, -⟩ := exec_leaves_error h he
  refine ⟨rfl, ?_⟩
  rw [raise_status]
  cases e <;> decide

/-- Settles O33: HASH is never ignored, and a rejected HASH is the one command that raises InvalidInput. -/
theorem invalidInputOnlyFromRejectedHash : Obligations.InvalidInputOnlyFromRejectedHash := by
  refine ⟨fun s t h => ⟨fun he => ?_, fun hr => ?_⟩, fun i s t hi h he => ?_⟩
  · obtain ⟨-, ⟨-, hne, -⟩ | ⟨-, hr⟩⟩ := exec_leaves_error h he
    · exact absurd rfl hne
    · exact hr
  · cases h.symm.trans (exec_of_raises (e := .invalidInput) ⟨rfl, hr⟩)
    rfl
  · obtain ⟨-, ⟨-, -, hs⟩ | ⟨rfl, -⟩⟩ := exec_leaves_error h he
    · exact hs
    · exact absurd rfl hi

/-- Settles O34: with no error recorded none is left by an ignored command, so the cause is one of `Raises`. -/
theorem invariantViolationHasThreeCauses : Obligations.InvariantViolationHasThreeCauses := by
  refine ⟨fun i s t hnone h => ⟨fun he => ?_, fun hcause => ?_⟩, fun s t h he => ?_, fun s t hnone h => ?_⟩
  · obtain ⟨-, ⟨-, -, hs⟩ | ⟨-, hcause⟩⟩ := exec_leaves_error h he
    · cases hnone.symm.trans hs
    · exact hcause
  · cases h.symm.trans (exec_of_raises (e := .internalInvariantViolation) ⟨hnone, hcause⟩)
    rfl
  · obtain ⟨-, ⟨-, hne, -⟩ | ⟨-, ⟨hi, -⟩ | ⟨hi, -⟩ | hi⟩⟩ := exec_leaves_error h he
    · exact hne rfl
    all_goals cases hi
  · obtain ⟨hlen, -, rfl⟩ := padStage_next ((execPad_of_none hnone).symm.trans h)
    rw [padded_plen_toNat hlen]
    exact padLen_mod_64 _

/-- Settles O35: legal lengths complete every command, and the exceptions listed are the causes of an error. -/
theorem everyCommandCompletes : Obligations.EveryCommandCompletes := by
  intro i s hlegal
  obtain ⟨t, ht⟩ := exec_completes i hlegal
  refine ⟨t, ht, fun hnone hhash hres hchunk => Option.eq_none_iff_forall_ne_some.2 fun e he => ?_⟩
  obtain ⟨-, ⟨-, -, hs⟩ | hraises⟩ := exec_leaves_error ht he
  · cases hnone.symm.trans hs
  · cases e with
    | invalidInput => exact hhash hraises
    | internalInvariantViolation =>
      obtain ⟨-, ⟨rfl, hmis⟩ | ⟨rfl, hend⟩ | hi⟩ := hraises
      · exact hchunk ⟨rfl, .inl hmis⟩
      · exact hchunk ⟨rfl, .inr hend⟩
      · cases hres.symm.trans hi

/-! ### While an error is recorded -/

theorem runCommands_of_error {s : State} {is : List Instr} (he : s.status.err ≠ none) (hdv : s.status.dv = false)
    (his : ∀ i ∈ is, i ≠ .init ∧ i ≠ .hash) : runCommands is s = .next s := by
  induction is with
  | nil => rfl
  | cons i is ih =>
    obtain ⟨⟨hinit, hhash⟩, hrest⟩ := List.forall_mem_cons.1 his
    rw [runCommands, exec_of_error hinit hhash he, clearDv_of_dv_false hdv, andThen_next]
    exact ih hrest

/-- HASH does not read STATUS: it raises with or begins with a STATUS of its own. -/
theorem execHash_set_status (s : State) (st : Status) : execHash { s with status := st } = execHash s := by
  by_cases hr : s.rejects
  · have hr' : State.rejects { s with status := st } := hr
    rw [execHash_of_rejects hr, execHash_of_rejects hr']
    rfl
  · have hr' : ¬ State.rejects { s with status := st } := hr
    have hinit : initStage { s with status := st } = initStage s := rfl
    rw [execHash_of_not_rejects hr, execHash_of_not_rejects hr', hinit]

/-- Settles O32: other commands are ignored, INIT and HASH do not read STATUS, and an access is the same step with an
error as without. -/
theorem errorIsSticky : Obligations.ErrorIsSticky := by
  refine ⟨fun s is => runCommands_of_error, fun s st => ⟨rfl, execHash_set_status s st⟩, fun s rest _ =>
    ⟨fun hs => ⟨_, step_reset hs, rfl⟩, fun l v hs ha hl => ?_, fun l hs ha => ⟨_, step_read hs ha, rfl⟩⟩⟩
  refine ⟨_, (step_write hs ha).trans (hostWrite_of_ne_cmd hl v _), ?_⟩
  obtain ⟨-, -, -, hstatus, -⟩ := storeElement_frame l v { s with script := rest }
  rw [clearDv_status, hstatus]

end Sys2Proof.Machine
end

section
/-! SUPPORT. The idle core (R126) and the core after reset (R130). -/

namespace Sys2Proof.Machine

theorem step_of_idle {s : State} (h : s.script = []) : step s = .next s := by
  rw [step, performNext, h]

/-- Settles O5: a step with no action at the head of the script is the idle one. -/
theorem idleCoreKeepsAllState : Obligations.IdleCoreKeepsAllState := fun _ => step_of_idle

/-- After a reset the buffers list no cell and LEN, PLEN and DV are 0. -/
theorem inv_afterReset (c : Config) (draw : Nat) : (State.afterReset c draw).Inv :=
  .of_dv_false ⟨Nat.zero_le _, Nat.zero_le _⟩ .nil .nil nofun nofun rfl

/-- Settles O42: `State.reset` is the state after one of the resets. -/
theorem invariantHoldsAtReset : Obligations.InvariantHoldsAtReset := ⟨inv_afterReset _ _, inv_afterReset⟩

end Sys2Proof.Machine
end
